-- ==== Sys2Proof/Word.lean ====
section
/-!
DEFINITION. The widths of the machine and the two fixed sets of names the spec uses throughout.
-/

namespace Sys2Proof

/-- A 64-bit value: CPTR_EL2, CPACR_EL1, an X register, the pc, an NVMem cell (rules R4, R55, R57, R63). -/
abbrev Word := BitVec 64

/-- One byte of the program text. -/
abbrev Byte := BitVec 8

/-- Exception levels, as `PSTATE.EL` is compared with them (rules R58, R189). -/
inductive EL where
  | el0
  | el1
  | el2
  | el3
  deriving DecidableEq, Repr

/-- The Execution state of a checked instruction (rule R9, input `AArch`). -/
inductive ExecState where
  | aarch64
  | aarch32
  deriving DecidableEq, Repr

/-- The two names by which an accessor can reach the CPTR_EL2 storage (rules R61, R67). -/
inductive AccessorName where
  | cptrEl2
  | cpacrEl1
  deriving DecidableEq, Repr

end Sys2Proof
end

