-- ==== Sys2Proof/Config.lean ====
section
/-!
DEFINITION. What an implementation fixes (the parameters `P` and the policy parameters of the spec), and the free
values: constants without a body, of which no proof can see a value.

The parameters are OPEN in the spec (rule R8, decision D2), so they are plain data that State carries and no step
changes; a claim holds for every value it does not name.
-/

namespace Sys2Proof

/-- The fourteen Boolean parameters of rule R8, fixed for the life of the machine. -/
structure Params where
  featAA64 : Bool
  featVHE : Bool
  featAMUv1 : Bool
  featS1POE : Bool
  /-- System register access to the trace unit registers is implemented. -/
  traceSysreg : Bool
  featSME : Bool
  featSVE : Bool
  featFPMR : Bool
  featSRMASK : Bool
  featFGT : Bool
  featETMv4 : Bool
  featETE : Bool
  haveEL3 : Bool
  haveEL2 : Bool
  deriving DecidableEq, Repr

/-- `UNKNOWN_POLICY` (rule R35, decision D4): what a Warm reset leaves in the storage. -/
inductive UnknownPolicy where
  /-- No bit holds a value; reading one faults. -/
  | fault
  /-- A free 64-bit value, reserved bits at their should-be values. -/
  | draw
  deriving DecidableEq, Repr

/-- `E0POE_REQUIRES_TGE` (rule R128, decision D17): E0POE = 0 met with TGE = 0. -/
inductive E0poePolicy where
  /-- `Trap` and `NoTrap` are both admitted: a draw decides. -/
  | bothAdmitted
  /-- No trap when TGE is 0. -/
  | requiresTge
  /-- The literal reading: the trap whatever TGE is. -/
  | literal
  deriving DecidableEq, Repr

/-- `MVFR_WRITE_TRAPPED_BY_FPEN` (rule R138, entry U3): writes to MVFR0, MVFR1, MVFR2 from EL1 or higher. -/
inductive MvfrWritePolicy where
  /-- The check gives no answer. -/
  | refuse
  /-- The access is one this control can trap. -/
  | trapped
  /-- The access is none this control can trap. -/
  | notTrapped
  deriving DecidableEq, Repr

/-- The policy parameters of `92_eei_decisions.md` section 2. `RES_POLICY` has the one setting `refuse` (D3). -/
structure Policy where
  unknown : UnknownPolicy
  e0poe : E0poePolicy
  mvfrWrite : MvfrWritePolicy
  /-- `NVMEM_BIG_ENDIAN` (D10), read by the byte view of NVMem only. -/
  nvmemBigEndian : Bool
  /-- `NVMEM_BASE` (D21), read by the byte view of NVMem only. -/
  nvmemBase : Word
  deriving DecidableEq, Repr

/-- FREE VALUE (log 14): the 64-bit value of the n-th draw "under no law" (rules R35, R64). -/
opaque Config.freeWord : Nat → Word

/-- FREE VALUE (log 14): which of the candidates the n-th draw from a set takes (rules R68, R128). -/
opaque Config.freeIndex : Nat → Nat

end Sys2Proof
end

