-- ==== Sys2Proof/Machine/Content.lean ====
section
/-!
DEFINITION. The content of the CPTR_EL2 storage: 64 bits, of which each may hold no value (rule R35), and the reading of
its bits and fields.
-/

namespace Sys2Proof.Machine

/-- 64 bits, each with or without a value: bit `i` of `known` says whether bit `i` of `bits` holds one (rules R20, R35).
A bit of no value is kept as zero (`Content.wf`), so that equal contents are equal data. -/
structure Content where
  bits : Word
  known : Word
  deriving DecidableEq, Repr

/-- The no-value content of rule R200. -/
def Content.noValue : Content := ⟨0#64, 0#64⟩

/-- A content of which every bit holds a value. -/
def Content.ofWord (w : Word) : Content := ⟨w, BitVec.allOnes 64⟩

/-- Every bit holds a value (rule R30 (b)). -/
def Content.full (c : Content) : Bool := c.known == BitVec.allOnes 64

/-- The canonical form: a bit of no value is kept as zero. -/
def Content.wf (c : Content) : Bool := (c.bits &&& ~~~c.known) == 0#64

/-- The slice of `width` bits from bit `lo` up, if each of them holds a value (rules R35, R121 (d), R150 (d)). -/
def Content.slice? (c : Content) (lo width : Nat) : Option (BitVec width) :=
  if c.known.extractLsb' lo width = BitVec.allOnes width then some (c.bits.extractLsb' lo width) else none

/-- One bit, `CPTR[i]`, if it holds a value. -/
def Content.bit? (c : Content) (i : Nat) : Option Bool :=
  (c.slice? i 1).map (fun b => b == 1#1)

/-- The merge of rule R31: the bits of `keep` stay as they were, every other bit takes its value from `v`. -/
def Content.merge (keep v : Word) (old : Content) : Content :=
  { bits := (v &&& ~~~keep) ||| (old.bits &&& keep)
    known := ~~~keep ||| (old.known &&& keep) }

/-- HCPTR: the low 32 bits of the same storage (rule R5), if each of them holds a value. -/
def Content.hcptr (c : Content) : Option (BitVec 32) := c.slice? 0 32

end Sys2Proof.Machine
end

