-- ==== Sys2Proof/Machine/Flags.lean ====
section
/-!
DEFINITION. The machine has no condition flags (rule R58). What takes their place is the register's own fields: the two
layouts of CPTR_EL2, the presence of each field, the masks, and the reserved-bit test of a write.
-/

namespace Sys2Proof.Machine

/-- The two field layouts (rule R21). -/
inductive Layout where
  /-- `fieldset_0`: the Effective value of HCR_EL2.E2H is 1. -/
  | a
  /-- `fieldset_1`: the Effective value of HCR_EL2.E2H is 0. -/
  | b
  deriving DecidableEq, Repr

/-- The named fields of the two layouts (rules R23, R24). -/
inductive Field where
  | tcpac
  | tam
  | e0poe
  | tta
  | smen
  | fpen
  | zen
  | tsm
  | tfp
  | tz
  deriving DecidableEq, Repr

/-- A row of the layout tables of rules R23 and R24: a named field, its lowest bit, its width, whether it is present, and
whether its bits are RES1 (else RES0) when it is not. -/
structure FieldRow where
  field : Field
  lo : Nat
  width : Nat
  present : Bool
  absentRes1 : Bool
  deriving DecidableEq, Repr

/-- Which layout applies, chosen at each use from the input E2H (rule R22, decision D19). -/
def layoutOf (e2h : Bool) : Layout := if e2h then .a else .b

/-- The named fields of a layout (rules R23, R24, R40 to R52). -/
def layoutRows (p : Params) : Layout → List FieldRow
  | .a =>
    [⟨.tcpac, 31, 1, true, false⟩,
     ⟨.tam, 30, 1, p.featAMUv1, false⟩,
     ⟨.e0poe, 29, 1, p.featS1POE, false⟩,
     ⟨.tta, 28, 1, p.traceSysreg, false⟩,
     ⟨.smen, 24, 2, p.featSME, false⟩,
     ⟨.fpen, 20, 2, true, false⟩,
     ⟨.zen, 16, 2, p.featSVE, false⟩]
  | .b =>
    [⟨.tcpac, 31, 1, true, false⟩,
     ⟨.tam, 30, 1, p.featAMUv1, false⟩,
     ⟨.tta, 20, 1, p.traceSysreg, false⟩,
     ⟨.tsm, 12, 1, p.featSME, true⟩,
     ⟨.tfp, 10, 1, true, false⟩,
     ⟨.tz, 8, 1, p.featSVE, true⟩]

/-- The reserved ranges of a layout that are RES1 whatever the features (rule R24: bits 13, 9 and 7:0 of layout B). -/
def fixedRes1 : Layout → Word
  | .a => 0x0#64
  | .b => 0x22FF#64

/-- The mask of a row's bits. -/
def FieldRow.mask (r : FieldRow) : Word := (BitVec.allOnes 64 >>> (64 - r.width)) <<< r.lo

/-- The union of the masks of the rows that `sel` selects. -/
def maskWhere (sel : FieldRow → Bool) : List FieldRow → Word
  | [] => 0#64
  | r :: rs => if sel r then r.mask ||| maskWhere sel rs else maskWhere sel rs

/-- The bits of the fields that are present (rules R25, R27). -/
def namedMask (p : Params) (l : Layout) : Word := maskWhere (fun r => r.present) (layoutRows p l)

/-- The bits that are RES1: the fixed ones and the absent form of TSM and TZ (rules R25, R27). -/
def res1Mask (p : Params) (l : Layout) : Word :=
  fixedRes1 l ||| maskWhere (fun r => !r.present && r.absentRes1) (layoutRows p l)

/-- Every other bit is RES0 (rules R23, R24, R25, R27). -/
def res0Mask (p : Params) (l : Layout) : Word := ~~~(namedMask p l ||| res1Mask p l)

/-- The reserved-bit test of a write: a one in a RES0 bit or a zero in a RES1 bit (rules R31, R32). -/
def resViolation (p : Params) (l : Layout) (v : Word) : Bool :=
  (v &&& res0Mask p l) != 0#64 || (~~~v &&& res1Mask p l) != 0#64

/-- What a Warm reset leaves in the storage (rules R35, R200, decision D4): no value, or, under `UNKNOWN_POLICY = draw`,
an arbitrary value whose reserved bits are at their should-be values. `d` numbers the draw. -/
def resetContent (p : Params) (pol : Policy) (e2h : Bool) (d : Nat) : Content :=
  match pol.unknown with
  | .fault => Content.noValue
  | .draw =>
    Content.ofWord ((Config.freeWord d &&& namedMask p (layoutOf e2h)) ||| res1Mask p (layoutOf e2h))

end Sys2Proof.Machine
end

