-- ==== Sys2Proof/Machine/Memory.lean ====
section
/-!
DEFINITION. Memory as a list of (address, cell) pairs in one canonical form. Two memories are held so: the program
text (cells are bytes, `Host.Cell`) and NVMem (64-bit cells at byte offsets, rule R64). An unlisted address holds no
cell; what that means to a reader is decided where it is read (`fetchBytes`, `nvRead`).
-/

namespace Sys2Proof.Machine

/-- Pairs of an address and a cell. -/
abbrev Memory (α : Type) := List (Nat × α)

/-- The canonical form: addresses strictly rising. -/
def Memory.wf {α : Type} : Memory α → Bool
  | [] => true
  | [_] => true
  | (a, _) :: (b, w) :: m => decide (a < b) && Memory.wf ((b, w) :: m)

/-- The cell at an address, if one is listed. -/
def Memory.read {α : Type} (a : Nat) : Memory α → Option α
  | [] => none
  | (b, w) :: m => if a = b then some w else Memory.read a m

/-- Set the cell at an address, keeping the canonical form. -/
def Memory.write {α : Type} (a : Nat) (v : α) : Memory α → Memory α
  | [] => [(a, v)]
  | (b, w) :: m =>
    if a < b then (a, v) :: (b, w) :: m
    else if a = b then (a, v) :: m
    else (b, w) :: Memory.write a v m

/-- Set consecutive cells from an address up. -/
def Memory.writeList {α : Type} (a : Nat) : List α → Memory α → Memory α
  | [], m => m
  | v :: vs, m => Memory.writeList (a + 1) vs (Memory.write a v m)

end Sys2Proof.Machine
end

