-- ==== Sys2Proof/Machine/State.lean ====
section
/-!
DEFINITION. The state of the machine as plain data, its stops, and the state after reset.
-/

namespace Sys2Proof.Machine

/-- The seven one-bit fields of CPTRMASK_EL2 (rules R9, R36). -/
structure CptrMask where
  tcpac : Bool
  tam : Bool
  e0poe : Bool
  tta : Bool
  smen : Bool
  fpen : Bool
  zen : Bool
  deriving DecidableEq, Repr

/-- The inputs of rule R9 that no accessor writes, constant over a run (decisions D2, D19, rule R58). -/
structure Env where
  /-- `PSTATE.EL`. -/
  el : EL
  /-- The Effective value of HCR_EL2.E2H. -/
  e2h : Bool
  /-- The Effective value of HCR_EL2.TGE. -/
  tge : Bool
  /-- `EffectiveHCR_EL2_NVx()`, bit 0 the one that `'xx1'` tests. -/
  nvx : BitVec 3
  /-- `EL2Enabled()`: EL2 is enabled in the current Security state (decision D16). -/
  el2Enabled : Bool
  /-- `ELIsInHost(EL2)`. -/
  inHostEL2 : Bool
  /-- `CPTR_EL3().TCPAC`. -/
  cptrEl3Tcpac : Bool
  el3SDDUndefPriority : Bool
  el3SDDUndef : Bool
  /-- `SCR_EL3().FGTEn`. -/
  scrEl3FGTEn : Bool
  /-- `HFGRTR_EL2().CPACR_EL1`. -/
  hfgrtrCpacrEl1 : Bool
  /-- `HFGWTR_EL2().CPACR_EL1`. -/
  hfgwtrCpacrEl1 : Bool
  /-- `IsSystemRegisterMaskingEnabled(EL2)`. -/
  srMaskEnabledEL2 : Bool
  cptrMask : CptrMask
  /-- The PE is in Streaming SVE mode (decision D29). -/
  streamingSVE : Bool
  /-- The Execution state of the instruction being checked. -/
  aarch : ExecState
  /-- The checked instruction is trapped by CPACR_EL1.TTA or CPACR.TRCDIS (rules R130, R157, conflict C1). -/
  trappedByCpacrTrace : Bool
  deriving DecidableEq, Repr

/-- An entry of `W` (rule R68): the accessor name of a write and the content it produced. -/
structure PendingWrite where
  name : AccessorName
  value : Content
  deriving DecidableEq, Repr

/-- Everything the spec gives the machine. -/
structure State where
  /-- The parameters `P` (rule R8); no step changes them. -/
  params : Params
  /-- The policy parameters (`92_eei_decisions.md` section 2); no step changes them. -/
  policy : Policy
  /-- The inputs `Env` (rule R9) other than CPACR_EL1 and NVMem; no step changes them. -/
  env : Env
  /-- X0 to X30 (rule R55). -/
  x : Vector Word 31
  /-- Bit `t`: X`t` holds a value (decision D14, rules R101, R203). -/
  xHeld : BitVec 31
  /-- The program counter (rule R57). -/
  pc : Word
  /-- CPTR_EL2 at the last `Synchronize` (rules R20, R68). -/
  base : Content
  /-- `W`: the writes since, oldest first (rule R68). -/
  pending : List PendingWrite
  /-- CPACR_EL1 as 64 opaque bits (rule R9, decision D2). -/
  cpacrEl1 : Word
  /-- NVMem: 64-bit cells at byte offsets (rules R63 to R65). -/
  nvmem : Memory Word
  /-- The bytes of the program text (rule R72, decision D22). -/
  text : List Host.Cell
  /-- THE MODEL'S OWN: how many draws have been made (log 14). -/
  draws : Nat
  deriving DecidableEq, Repr

/-- Why the machine stops with an outcome of the spec's other than `Done` and `Refused`. -/
inductive Fault where
  /-- `Undefined` (rule R172): raised by the four accessors (rule R175 rows 1, 2, 4, 5, 8). A terminal outcome of the
  spec; nothing is changed and the pc stays. Safe (log 9). -/
  | undefined
  /-- `Trap(target, ec, iss)` (rule R173): raised by the four accessors (rule R175 rows 3, 6, 7, 9). A terminal outcome
  of the spec; nothing is changed and the pc stays; an absent `iss` is one the spec does not give. Safe (log 9). -/
  | trap (target : EL) (ec : Nat) (iss : Option Nat)
  /-- `Fault(UnknownValue)` (rules R30, R35, R121, R150): a read of CPTR_EL2, or a test of one of its fields, that meets a
  bit of no value. No run from reset meets one (log 4). Safe. -/
  | unknownValue
  /-- `Fault(UnwrittenRegister)` (rule R101, decision D14): an MSR from a register that holds no value. No run from reset
  meets one (log 3). Safe. -/
  | unwrittenRegister
  /-- The pc is past the program text: the end of the run (decision D22). Raised by the fetch. Safe (log 11). -/
  | endOfProgram
  deriving DecidableEq, Repr

/-- Why the machine gives no meaning. -/
inductive Refusal where
  /-- An arm of `exec` that has no meaning yet. Safe. -/
  | notModelled (mnemonic : String)
  /-- `Refused(NotInScope)` (rule R90): raised by the fetch on any word that is none of the five instructions. Safe. -/
  | notInScope
  /-- `Refused(NotInSource)` (rule R88): raised by the CPACR_EL1 accessors without FEAT_VHE. Safe. -/
  | notInSource
  /-- `Refused(ResViolation)` (rules R31, R32): raised by a write to CPTR_EL2 that sets a RES0 bit or clears a RES1 bit.
  Safe (log 16). -/
  | resViolation
  /-- `Refused(SrmaskLayoutB)` (rule R37): raised by a masked write to CPTR_EL2 from EL2 in layout B. Safe (log 17). -/
  | srmaskLayoutB
  /-- `Refused(ConstrainedUnpredictable)` (rules R138, R164): raised by the trap check for a write to MVFR0, MVFR1 or
  MVFR2 from EL1 or higher, under the policy `refuse`. Safe (log 24). -/
  | constrainedUnpredictable
  /-- `Refused(UnreachableState)` (rule R142): raised at the start of a step, or of a check of the instruction about to
  execute, at EL1 with EL2 enabled and TGE 1. Safe (log 20). -/
  | unreachableState
  /-- The pc is not a multiple of 4 (rule R57): raised by the fetch. Safe (log 19). -/
  | misalignedPc
  /-- The pc would pass `2^64 - 4` (rule R57): raised when an instruction completes. Safe (log 19). -/
  | pcWrap
  deriving DecidableEq, Repr

/-- The result of an operation: a value, a fault or a refusal. -/
abbrev Result (α : Type) := Host.Outcome α Fault Refusal

/-! Updates of single pieces of state, each with its field lemmas in `Sys2Proof/Laws/State.lean`. -/

def State.withPc (s : State) (pc : Word) : State := { s with pc := pc }
def State.withRegs (s : State) (x : Vector Word 31) (held : BitVec 31) : State := { s with x := x, xHeld := held }
def State.withStorage (s : State) (base : Content) (w : List PendingWrite) : State := { s with base := base, pending := w }
def State.withCpacrEl1 (s : State) (v : Word) : State := { s with cpacrEl1 := v }
def State.withNvmem (s : State) (m : Memory Word) : State := { s with nvmem := m }
def State.withText (s : State) (m : List Host.Cell) : State := { s with text := m }
def State.withDraws (s : State) (d : Nat) : State := { s with draws := d }

/-- The parameters of the default configuration K0 of `95_test_vectors.md` section 0 (log 1). -/
def Params.k0 : Params :=
  { featAA64 := true, featVHE := true, featAMUv1 := true, featS1POE := true, traceSysreg := true, featSME := true
    featSVE := true, featFPMR := true, featSRMASK := false, featFGT := true, featETMv4 := false, featETE := true
    haveEL3 := false, haveEL2 := true }

/-- The policies of the spec where it settles one, else those of logs 4 and 8. -/
def Policy.k0 : Policy :=
  { unknown := .draw, e0poe := .bothAdmitted, mvfrWrite := .refuse, nvmemBigEndian := false, nvmemBase := 0#64 }

/-- The inputs of K0, at EL2 and with E2H = 1 (log 2). -/
def Env.k0 : Env :=
  { el := .el2, e2h := true, tge := false, nvx := 0#3, el2Enabled := true, inHostEL2 := false, cptrEl3Tcpac := false
    el3SDDUndefPriority := false, el3SDDUndef := false, scrEl3FGTEn := true, hfgrtrCpacrEl1 := false
    hfgwtrCpacrEl1 := false, srMaskEnabledEL2 := false
    cptrMask := ⟨false, false, false, false, false, false, false⟩
    streamingSVE := false, aarch := .aarch64, trappedByCpacrTrace := false }

/-- The inputs at reset: those of K0 but for `ELIsInHost(EL2)`, which the optional consistency assumption of
`92_eei_decisions.md` section 2 sets with E2H = 1 (log 2). -/
def Env.reset : Env := { Env.k0 with inHostEL2 := true }

/-- The machine right after `WarmReset` (rule R200) of the configuration K0: CPTR_EL2 as `resetContent` leaves it (draw
number 0), `W` empty, no program, and the start values that logs 1 to 7 name. -/
def State.reset : State :=
  { params := Params.k0
    policy := Policy.k0
    env := Env.reset
    x := Vector.replicate 31 0#64
    xHeld := BitVec.allOnes 31
    pc := 0#64
    base := resetContent Params.k0 Policy.k0 Env.reset.e2h 0
    pending := []
    cpacrEl1 := 0#64
    nvmem := []
    text := []
    draws := 1 }

end Sys2Proof.Machine
end

