-- ==== Sys2Proof/Machine/Operands.lean ====
section
/-!
DEFINITION. The one operand form of the accessors: the general-purpose register `X{64}(t)`, read and written whole
(rules R55, R56, R82).
-/

namespace Sys2Proof.Machine

/-- `x[t]` as a source. Number 31 is XZR and reads as zero (rule R56); no number above 31 is well formed, and one reads
as 31 does (log 31). A register that holds no value faults (rule R101, decision D14). -/
def readX (t : Nat) (s : State) : Result Word :=
  if h : t < 31 then
    if s.xHeld.getLsbD t then .next s.x[t] else .fault .unwrittenRegister
  else .next 0#64

/-- `x[t] <- v`: register `t` takes the value and holds one; a write to number 31 is discarded (rule R56). -/
def writeX (t : Nat) (v : Word) (s : State) : State :=
  if h : t < 31 then s.withRegs (s.x.set t v) (s.xHeld ||| BitVec.twoPow 31 t) else s

end Sys2Proof.Machine
end

