-- ==== Sys2Proof/Machine/Ops.lean ====
section
/-!
DEFINITION. The named operations the meanings share: raising an exception, completing, the draws, the CPTR_EL2 storage
with its pending writes, NVMem, and the permission tests of the four accessors.
-/

namespace Sys2Proof.Machine

/-! ## Sequencing -/

/-- Go on with `k` where `r` gives a value; a fault or a refusal ends the operation. -/
def andThen {α β : Type} (r : Result α) (k : α → Result β) : Result β :=
  match r with
  | .next a => k a
  | .fault f => .fault f
  | .refused f => .refused f

/-! ## Exceptions and completion -/

/-- `raise Undefined()` (rule R172): the step ends, nothing is changed, the pc stays. -/
def raiseUndefined {α : Type} : Result α := .fault .undefined

/-- `AArch64_SystemAccessTrap(target, 0x18)` (rule R173): the step ends with that trap, nothing is changed, the pc stays;
the source gives this EC no ISS (rule R171). There is no return from it (rule R183). -/
def systemAccessTrap {α : Type} (target : EL) : Result α := .fault (.trap target 0x18 none)

/-- The outcome `Done`: the pc advances by 4, and a pc that would pass `2^64 - 4` is refused (rules R57, R108). -/
def complete (s : State) : Result State :=
  if s.pc.toNat + 4 < 2 ^ 64 then .next (s.withPc (s.pc + 4#64)) else .refused .pcWrap

/-! ## Draws -/

/-- Any one of `c` and the elements of `cs`: draw number `d` decides where there is a choice. -/
def choose {α : Type} (d : Nat) (c : α) (cs : List α) : α :=
  match cs with
  | [] => c
  | b :: bs => ((c :: b :: bs)[Config.freeIndex d % (bs.length + 2)]?).getD c

/-! ## The CPTR_EL2 storage -/

/-- The content of the last write of `w` by this name, if there is one. -/
def lastNamed (n : AccessorName) : List PendingWrite → Option Content
  | [] => none
  | e :: w => (lastNamed n w).or (if e.name = n then some e.value else none)

/-- The contents of the writes of `w` by the other name. -/
def otherNamed (n : AccessorName) : List PendingWrite → List Content
  | [] => []
  | e :: w => if e.name = n then otherNamed n w else e.value :: otherNamed n w

/-- The last content written by this name, or `base` (rule R68, `own`). -/
def ownContent (n : AccessorName) (s : State) : Content := (lastNamed n s.pending).getD s.base

/-- `DirectRead(name)` (rule R68). -/
def directRead (n : AccessorName) (s : State) : Content × State :=
  (choose s.draws (ownContent n s) (otherNamed n s.pending), s.withDraws (s.draws + 1))

/-- `IndirectRead()` (rules R68, R70): what a trap check sees. -/
def indirectRead (s : State) : Content × State :=
  (choose s.draws s.base (s.pending.map (fun e => e.value)), s.withDraws (s.draws + 1))

/-- `Synchronize()` (rules R68, R69). The environment may also perform it between steps (decision D11, log 26). -/
def synchronize (s : State) : State :=
  match lastNamed .cptrEl2 s.pending, lastNamed .cpacrEl1 s.pending with
  | none, none => s
  | some c, none => (s.withStorage c []).withDraws (s.draws + 1)
  | none, some c => (s.withStorage c []).withDraws (s.draws + 1)
  | some c, some c' => (s.withStorage (choose s.draws c [c']) []).withDraws (s.draws + 1)

/-- `WarmReset` of the register (rules R34, R200, R201): an event of the environment before the first step of a run. -/
def warmReset (s : State) : State :=
  (s.withStorage (resetContent s.params s.policy s.env.e2h s.draws) []).withDraws (s.draws + 1)

/-- The bit of CPTRMASK_EL2 for a field of layout A; the fields of layout B alone have none (rules R36, R37). -/
def CptrMask.bit (m : CptrMask) : Field → Bool
  | .tcpac => m.tcpac
  | .tam => m.tam
  | .e0poe => m.e0poe
  | .tta => m.tta
  | .smen => m.smen
  | .fpen => m.fpen
  | .zen => m.zen
  | .tsm => false
  | .tfp => false
  | .tz => false

/-- Writes to CPTR_EL2 are masked by CPTRMASK_EL2 (rule R36): from EL2 only, whatever the accessor name. -/
def maskingApplies (s : State) : Bool :=
  s.params.featSRMASK && decide (s.env.el = .el2) && s.env.srMaskEnabledEL2

/-- The bits of the read-only fields of layout A, `ReadOnly(F)` of rule R36. -/
def readOnlyMask (s : State) : Word :=
  if maskingApplies s && s.env.e2h then
    maskWhere (fun r => r.present && s.env.cptrMask.bit r.field) (layoutRows s.params .a)
  else 0#64

/-- EL2 is not implemented and the access is from EL3: the register is RES0 (rule R33, decision D15). -/
def res0FromEL3 (s : State) : Bool := !s.params.haveEL2 && decide (s.env.el = .el3)

/-- `CPTR` as a source, by an accessor name (rule R30). -/
def readCptr (n : AccessorName) (s : State) : Result (Word × State) :=
  if res0FromEL3 s then .next (0#64, s)
  else if (directRead n s).1.full then .next ((directRead n s).1.bits, (directRead n s).2)
  else .fault .unknownValue

/-- `DirectWrite(name, v)` (rule R68) of a value that rule R31 admits. -/
def directWrite (n : AccessorName) (v : Word) (s : State) : State :=
  let old := directRead n s
  old.2.withStorage s.base (s.pending ++ [⟨n, Content.merge (readOnlyMask s) v old.1⟩])

/-- `CPTR <- v` by an accessor name (rule R31). -/
def writeCptr (n : AccessorName) (v : Word) (s : State) : Result State :=
  if res0FromEL3 s then .next s
  else if maskingApplies s && !s.env.e2h then .refused .srmaskLayoutB
  else if resViolation s.params (layoutOf s.env.e2h) v then .refused .resViolation
  else .next (directWrite n v s)

/-! ## NVMem -/

/-- `NVMemRead(off)` (rule R64): a cell that no step has written is answered by a draw. -/
def nvRead (off : Nat) (s : State) : Word × State :=
  match Memory.read off s.nvmem with
  | some v => (v, s)
  | none => (Config.freeWord s.draws, s.withDraws (s.draws + 1))

/-- `NVMemWrite(off, v)` (rule R65). -/
def nvWrite (off : Nat) (v : Word) (s : State) : State := s.withNvmem (Memory.write off v s.nvmem)

/-- The eight bytes of a word, the least significant first. -/
def bytesLE64 (v : Word) : List Byte := [0, 8, 16, 24, 32, 40, 48, 56].map (fun k => v.extractLsb' k 8)

/-- The byte view of a cell for a byte-level reader (rule R66, decisions D10, D21): eight bytes at `NVMEM_BASE + off`, in
the byte order `NVMEM_BIG_ENDIAN`. Nothing in the machine reads it. DESIGN CHOICE (log 8): the sum is one of natural
numbers, so it does not wrap where it passes 2^64, and a base that is not aligned is not refused. -/
def nvCellBytes (pol : Policy) (off : Nat) (v : Word) : List Host.Cell :=
  (List.range' (pol.nvmemBase.toNat + off) 8).zip
    (if pol.nvmemBigEndian then (bytesLE64 v).reverse else bytesLE64 v)

/-! ## The permission tests of the accessors -/

/-- What an access that no test stops reaches (rule R105). -/
inductive Target where
  /-- The CPTR_EL2 storage, by this accessor name. -/
  | cptr (name : AccessorName)
  /-- The register CPACR_EL1. -/
  | cpacrEl1
  /-- The memory location `NVMem(0x100)`. -/
  | nvmem
  deriving DecidableEq, Repr

/-- `P.HAVE_EL3 and Env.EL3SDDUndefPriority and Env.CPTR_EL3_TCPAC == 1` is UNDEFINED ahead of every trap (rule R106). -/
def el3Priority {α : Type} (s : State) (k : Result α) : Result α :=
  if s.params.haveEL3 && s.env.el3SDDUndefPriority && s.env.cptrEl3Tcpac then raiseUndefined else k

/-- `P.HAVE_EL3 and Env.CPTR_EL3_TCPAC == 1`: UNDEFINED by `EL3SDDUndef`, else a trap to EL3 (rule R106). -/
def el3Trap {α : Type} (s : State) (k : Result α) : Result α :=
  if s.params.haveEL3 && s.env.cptrEl3Tcpac then
    if s.env.el3SDDUndef then raiseUndefined else systemAccessTrap .el3
  else k

/-- `Env.EL2Enabled and CPTR.TCPAC == 1`: bit 31 in both layouts, read through `IndirectRead` only where EL2 is enabled
(rules R40, R47, R102, R103, R107). -/
def tcpacGate (s : State) : Result State :=
  if s.env.el2Enabled then
    match (indirectRead s).1.bit? 31 with
    | none => .fault .unknownValue
    | some true => systemAccessTrap .el2
    | some false => .next (indirectRead s).2
  else .next s

/-- The fine-grained trap of CPACR_EL1; `bit` is that of HFGRTR_EL2 for a read, of HFGWTR_EL2 for a write (rule R188). -/
def fgtGate {α : Type} (bit : Bool) (s : State) (k : Result α) : Result α :=
  if s.env.el2Enabled && s.params.featFGT && (!s.params.haveEL3 || s.env.scrEl3FGTEn) && bit then
    systemAccessTrap .el2
  else k

/-- The arms of the two CPTR_EL2 accessors (rules R100, R101). -/
def routeCptrEl2 (s : State) : Result (Target × State) :=
  if !s.params.featAA64 then raiseUndefined
  else
    match s.env.el with
    | .el0 => raiseUndefined
    | .el1 => if s.env.nvx.getLsbD 0 then systemAccessTrap .el2 else raiseUndefined
    | .el2 => el3Priority s (el3Trap s (.next (.cptr .cptrEl2, s)))
    | .el3 => .next (.cptr .cptrEl2, s)

/-- The arms of the two CPACR_EL1 accessors (rules R88, R102, R103), `fgtBit` as in `fgtGate`. -/
def routeCpacrEl1 (fgtBit : Bool) (s : State) : Result (Target × State) :=
  if !s.params.featVHE then .refused .notInSource
  else if !s.params.featAA64 then raiseUndefined
  else
    match s.env.el with
    | .el0 => raiseUndefined
    | .el1 =>
      el3Priority s
        (andThen (tcpacGate s) fun s1 =>
          fgtGate fgtBit s1 (el3Trap s1 (.next (if s1.env.nvx = 0b111#3 then .nvmem else .cpacrEl1, s1))))
    | .el2 =>
      el3Priority s (el3Trap s (.next (if s.env.inHostEL2 then .cptr .cpacrEl1 else .cpacrEl1, s)))
    | .el3 => .next (.cpacrEl1, s)

/-! ## The two directions of an access -/

/-- Read a target. -/
def readTarget (tgt : Target) (s : State) : Result (Word × State) :=
  match tgt with
  | .cptr n => readCptr n s
  | .cpacrEl1 => .next (s.cpacrEl1, s)
  | .nvmem => .next (nvRead 0x100 s)

/-- Write a target. -/
def writeTarget (tgt : Target) (v : Word) (s : State) : Result State :=
  match tgt with
  | .cptr n => writeCptr n v s
  | .cpacrEl1 => .next (s.withCpacrEl1 v)
  | .nvmem => .next (nvWrite 0x100 v s)

/-- An MRS whose arms gave `route`: the target is read into `x[t]` and the instruction completes. -/
def mrsFrom (t : Nat) (route : Result (Target × State)) : Result State :=
  andThen route fun (tgt, s) => andThen (readTarget tgt s) fun (v, s1) => complete (writeX t v s1)

/-- An MSR whose arms gave `route`: `x[t]` is read, then the target is written and the instruction completes. -/
def msrTo (t : Nat) (route : Result (Target × State)) : Result State :=
  andThen route fun (tgt, s) =>
    andThen (readX t s) fun v => andThen (writeTarget tgt v s) fun s1 => complete s1

end Sys2Proof.Machine
end

