-- ==== Sys2Proof/Machine/Synchronisation.lean ====
section
/-!
DEFINITION. The pseudo-instruction `SYNC`.
-/

namespace Sys2Proof.Machine

/-- `SYNC` (rule R69): performs `Synchronize()` and nothing else, at every Exception level. -/
def execSync (s : State) : Result State := complete (synchronize s)

end Sys2Proof.Machine
end

