-- ==== Sys2Proof/Machine/SystemAccess.lean ====
section
/-!
DEFINITION. The four accessor instructions (`40_sysreg_access.md`).
-/

namespace Sys2Proof.Machine

/-- `MRS <Xt>, CPTR_EL2` (rule R100). -/
def execMrsCptrEl2 (t : Nat) (s : State) : Result State := mrsFrom t (routeCptrEl2 s)

/-- `MSR CPTR_EL2, <Xt>` (rule R101). -/
def execMsrCptrEl2 (t : Nat) (s : State) : Result State := msrTo t (routeCptrEl2 s)

/-- `MRS <Xt>, CPACR_EL1` (rule R102): the fine-grained trap bit is that of HFGRTR_EL2. -/
def execMrsCpacrEl1 (t : Nat) (s : State) : Result State := mrsFrom t (routeCpacrEl1 s.env.hfgrtrCpacrEl1 s)

/-- `MSR CPACR_EL1, <Xt>` (rule R103): the fine-grained trap bit is that of HFGWTR_EL2. -/
def execMsrCpacrEl1 (t : Nat) (s : State) : Result State := msrTo t (routeCpacrEl1 s.env.hfgwtrCpacrEl1 s)

end Sys2Proof.Machine
end

