-- ==== Sys2Proof/Syntax.lean ====
section
/-!
DEFINITION. The instructions: one constructor per row of `spec/opcode_table.json`.
-/

namespace Sys2Proof

/-- The four accessors of the register page and the pseudo-instruction `SYNC` of the spec.
`t` is the number of `<Xt>` (rule R82); a number above 31 is ill formed (`Instr.WellFormed`). -/
inductive Instr where
  /-- `MRS <Xt>, CPTR_EL2` (rules R84, R100). -/
  | mrsCptrEl2 (t : Nat)
  /-- `MSR CPTR_EL2, <Xt>` (rules R85, R101). -/
  | msrCptrEl2 (t : Nat)
  /-- `MRS <Xt>, CPACR_EL1` (rules R86, R102). -/
  | mrsCpacrEl1 (t : Nat)
  /-- `MSR CPACR_EL1, <Xt>` (rules R87, R103). -/
  | msrCpacrEl1 (t : Nat)
  /-- `SYNC`, an explicit synchronisation (rule R69). -/
  | sync
  deriving DecidableEq, Repr

end Sys2Proof
end

