-- ==== Sys2Proof/Machine/Dispatch.lean ====
section
/-!
DEFINITION. One arm per constructor of Instr.
-/

namespace Sys2Proof.Machine

def exec (i : Instr) (s : State) : Host.Outcome State Fault Refusal :=
  match i with
  | .mrsCptrEl2 t => Sys2Proof.Machine.execMrsCptrEl2 t s
  | .msrCptrEl2 t => Sys2Proof.Machine.execMsrCptrEl2 t s
  | .mrsCpacrEl1 t => Sys2Proof.Machine.execMrsCpacrEl1 t s
  | .msrCpacrEl1 t => Sys2Proof.Machine.execMsrCpacrEl1 t s
  | .sync => Sys2Proof.Machine.execSync s

end Sys2Proof.Machine
end

