-- ==== Sys2Proof/WellFormed.lean ====
section
/-!
DEFINITION. When an instruction is well formed.
-/

namespace Sys2Proof

/-- The register number of an accessor is `t` in 0..31, 31 being XZR (rules R56, R82, R100 to R103).
`SYNC` has no operand. -/
def Instr.wellFormed : Instr → Bool
  | .mrsCptrEl2 t => decide (t ≤ 31)
  | .msrCptrEl2 t => decide (t ≤ 31)
  | .mrsCpacrEl1 t => decide (t ≤ 31)
  | .msrCpacrEl1 t => decide (t ≤ 31)
  | .sync => true

/-- `Instr.wellFormed` as a proposition. -/
abbrev Instr.WellFormed (i : Instr) : Prop := i.wellFormed = true

end Sys2Proof
end

