-- ==== Sys2Proof/Decode.lean ====
section
/-!
DEFINITION. The decoder and the encoder, at the two levels of the spec: the System-accessor tuple of rule R80 (the
level decision D1 works at) and the 32-bit word of rule R81 (from general knowledge, log 12).
-/

namespace Sys2Proof

/-- A System accessor (rules R60, R80): direction, the five encoding fields, and the number of `<Xt>`. -/
structure Accessor where
  /-- `L`: true for `MRS` (read), false for `MSR` (register, write). -/
  read : Bool
  op0 : BitVec 2
  op1 : BitVec 3
  crn : BitVec 4
  crm : BitVec 4
  op2 : BitVec 3
  t : BitVec 5
  deriving DecidableEq, Repr

/-- Why a byte string is no instruction of the model (rule R90). -/
inductive DecodeReject where
  /-- Fewer than four bytes are left. -/
  | tooShort
  /-- The word is neither `SYNC` nor of the MRS or MSR (register) form of rule R81. -/
  | notASystemAccessor
  /-- A System accessor whose point of the register space is neither CPTR_EL2 nor CPACR_EL1 (rule R61). -/
  | registerNotInScope
  deriving DecidableEq, Repr

/-- The word of `SYNC`: that of ISB, one realisation of it (rule R69, log 13). -/
def syncWord : BitVec 32 := 0xD5033FDF#32

/-- The fields of an MRS or MSR (register) word, bit by bit as rule R81 places them. -/
def Accessor.ofWord? (w : BitVec 32) : Option Accessor :=
  if w.extractLsb' 22 10 = 0b1101010100#10 ∧ w.extractLsb' 20 1 = 1#1 then
    some
      { read := w.extractLsb' 21 1 = 1#1
        op0 := 1#1 ++ w.extractLsb' 19 1
        op1 := w.extractLsb' 16 3
        crn := w.extractLsb' 12 4
        crm := w.extractLsb' 8 4
        op2 := w.extractLsb' 5 3
        t := w.extractLsb' 0 5 }
  else none

/-- The word of a System accessor with `op0 = 0b1:o0`, assembled from the most significant field down (rule R81). -/
def Accessor.toWord (a : Accessor) : BitVec 32 :=
  0b1101010100#10 ++ BitVec.ofBool a.read ++ 1#1 ++ a.op0.extractLsb' 0 1 ++ a.op1 ++ a.crn ++ a.crm ++ a.op2 ++ a.t

/-- The two points of the register space in scope (rules R61, R84 to R87). -/
def Accessor.toInstr? (a : Accessor) : Option Instr :=
  if a.op0 = 0b11#2 ∧ a.op1 = 0b100#3 ∧ a.crn = 0b0001#4 ∧ a.crm = 0b0001#4 ∧ a.op2 = 0b010#3 then
    some (if a.read then .mrsCptrEl2 a.t.toNat else .msrCptrEl2 a.t.toNat)
  else if a.op0 = 0b11#2 ∧ a.op1 = 0b000#3 ∧ a.crn = 0b0001#4 ∧ a.crm = 0b0000#4 ∧ a.op2 = 0b010#3 then
    some (if a.read then .mrsCpacrEl1 a.t.toNat else .msrCpacrEl1 a.t.toNat)
  else none

/-- The accessor tuple of an instruction (rules R84 to R87); `SYNC` has none. -/
def Instr.accessor? : Instr → Option Accessor
  | .mrsCptrEl2 t => some ⟨true, 0b11#2, 0b100#3, 0b0001#4, 0b0001#4, 0b010#3, BitVec.ofNat 5 t⟩
  | .msrCptrEl2 t => some ⟨false, 0b11#2, 0b100#3, 0b0001#4, 0b0001#4, 0b010#3, BitVec.ofNat 5 t⟩
  | .mrsCpacrEl1 t => some ⟨true, 0b11#2, 0b000#3, 0b0001#4, 0b0000#4, 0b010#3, BitVec.ofNat 5 t⟩
  | .msrCpacrEl1 t => some ⟨false, 0b11#2, 0b000#3, 0b0001#4, 0b0000#4, 0b010#3, BitVec.ofNat 5 t⟩
  | .sync => none

/-- The instruction of a 32-bit word, or the reason there is none (rules R81, R84 to R87, R69, R90). -/
def decodeWord (w : BitVec 32) : Except DecodeReject Instr :=
  if w = syncWord then .ok .sync
  else
    match Accessor.ofWord? w with
    | none => .error .notASystemAccessor
    | some a =>
      match a.toInstr? with
      | none => .error .registerNotInScope
      | some i => .ok i

/-- Four bytes in memory as one word, the first at the lowest address the least significant (rule R81). -/
def wordOfBytes (b0 b1 b2 b3 : Byte) : BitVec 32 := b3 ++ b2 ++ b1 ++ b0

/-- The bytes of a word in the order they lie in memory (rule R81). -/
def bytesOfWord (w : BitVec 32) : List Byte :=
  [w.extractLsb' 0 8, w.extractLsb' 8 8, w.extractLsb' 16 8, w.extractLsb' 24 8]

/-- Decode the instruction at the head of a byte string, and what follows it. Total: every other string is rejected by
name (rule R90). -/
def decode : List Byte → Except DecodeReject (Instr × List Byte)
  | b0 :: b1 :: b2 :: b3 :: rest =>
    match decodeWord (wordOfBytes b0 b1 b2 b3) with
    | .ok i => .ok (i, rest)
    | .error e => .error e
  | _ => .error .tooShort

/-- The word of an instruction (rules R69, R81, R84 to R87). -/
def encodeWord (i : Instr) : BitVec 32 :=
  match i.accessor? with
  | some a => a.toWord
  | none => syncWord

/-- The bytes of an instruction as they lie in memory. -/
def encode (i : Instr) : List Byte := bytesOfWord (encodeWord i)

/-- The instruction whose bits are `w`, numbered as `spec/opcode_table.json` numbers them. Every row gives all 32 bits
of its one word; bits at or above `nbits` are zero. -/
def decodeTableWord (nbits w : Nat) : Option Instr :=
  match decode (bytesOfWord (BitVec.ofNat 32 (w % 2 ^ nbits))) with
  | .ok (i, []) => some i
  | _ => none

end Sys2Proof
end

