-- ==== Sys2Proof/Machine/Fetch.lean ====
section
/-!
DEFINITION. What a step does before the meaning of its instruction: the state refused at launch, the alignment of the pc,
the fetch from the program text, and the placing of an instruction there.
-/

namespace Sys2Proof.Machine

/-- `el == EL1 and Env.TGE == 1 and Env.EL2Enabled`: a state the source never describes (rule R142, decision D18). -/
def unreachable (s : State) : Bool := decide (s.env.el = .el1) && s.env.tge && s.env.el2Enabled

/-- The four bytes of program text from an address up, if all are there. -/
def fetchBytes (a : Nat) (m : List Host.Cell) : Option (List Byte) :=
  match Memory.read a m, Memory.read (a + 1) m, Memory.read (a + 2) m, Memory.read (a + 3) m with
  | some b0, some b1, some b2, some b3 => some [b0, b1, b2, b3]
  | _, _, _, _ => none

/-- The instruction about to execute: the state is one the spec describes (rule R142), the pc is a multiple of 4 (rule
R57), the program has not ended (decision D22), and the word is one of the five (rule R90). -/
def fetchInstr (s : State) : Result Instr :=
  if unreachable s then .refused .unreachableState
  else if s.pc.extractLsb' 0 2 ≠ 0#2 then .refused .misalignedPc
  else
    match fetchBytes s.pc.toNat s.text with
    | none => .fault .endOfProgram
    | some bs =>
      match decode bs with
      | .error _ => .refused .notInScope
      | .ok (i, _) => .next i

/-- The state with a word of program text at the pc, in the byte order of rule R81. -/
def placeWord (s : State) (w : BitVec 32) : State :=
  s.withText (Memory.writeList s.pc.toNat (bytesOfWord w) s.text)

end Sys2Proof.Machine
end

