-- ==== Sys2Proof/Machine/Step.lean ====
section
/-!
DEFINITION. One step: fetch, decode, execute.
-/

namespace Sys2Proof.Machine

/-- One execution of one instruction by the PE. -/
def step (s : State) : Host.Outcome State Fault Refusal := andThen (fetchInstr s) fun i => exec i s

/-- `s` with the instruction whose bits are `w` (those at or above `nbits` zero) as the next one `step` fetches. -/
def State.withFetchWord (s : State) (nbits w : Nat) : State := placeWord s (BitVec.ofNat 32 (w % 2 ^ nbits))

end Sys2Proof.Machine
end

