-- ==== Sys2Proof/Machine/Syndrome.lean ====
section
/-!
DEFINITION. The ISS of an EC 0x18 trap of an accessor (rule R174, from general knowledge, log 10). The `iss` of the
model's traps does not carry it: the source gives none (rule R171). It is offered to a reader who wants it.
-/

namespace Sys2Proof.Machine

/-- The 25 bits from the most significant down: RES0 (3), Op0 (2), Op2 (3), Op1 (3), CRn (4), Rt (5), CRm (4),
Direction (1, one for a read). -/
def systemAccessIss (a : Accessor) : BitVec 25 :=
  0#3 ++ a.op0 ++ a.op2 ++ a.op1 ++ a.crn ++ a.t ++ a.crm ++ BitVec.ofBool a.read

/-- The same for an instruction; `SYNC` has none. -/
def issOf (i : Instr) : Option (BitVec 25) := i.accessor?.map systemAccessIss

end Sys2Proof.Machine
end

