-- ==== Sys2Proof/Machine/TrapClasses.lean ====
section
/-!
DEFINITION. The instructions whose trapping CPTR_EL2 controls: the class inputs of rule R120, and which of them hold for
the registers and instructions the spec names (rules R62, R122, R125, R126, R129, R132, R133, R136, R138, R139, R161,
R162).
-/

namespace Sys2Proof.Machine

/-- How an Activity Monitors register is accessed, `i.AMUkind` (rules R120, R124). -/
inductive AmuKind where
  | a64
  | a32MrcMcr
  | a32MrrcMcrr
  deriving DecidableEq, Repr

/-- The five AArch32 registers of the note of rule R138. -/
inductive FpIdReg where
  | fpsid
  | mvfr0
  | mvfr1
  | mvfr2
  | fpexc
  deriving DecidableEq, Repr

/-- An AArch32 access to one of those five. -/
structure FpIdAccess where
  reg : FpIdReg
  write : Bool
  deriving DecidableEq, Repr

/-- The class inputs of an instruction (rule R120, decision D20). -/
structure ClassInputs where
  cpacr : Bool := false
  amu : Option AmuKind := none
  porEl0 : Bool := false
  trace : Bool := false
  smeInstr : Bool := false
  sveInstr : Bool := false
  smeReg : Bool := false
  sveReg : Bool := false
  fpReg : Bool := false
  fpmr : Bool := false
  trappedByCpacrTrace : Bool := false
  fpId : Option FpIdAccess := none
  deriving DecidableEq, Repr

/-- The Activity Monitors registers both Execution states name by MRS, MSR, MRC or MCR (rules R125, R126); the range of
`n` is not in the source. -/
inductive AmuReg where
  | amuserenr
  | amcfgr
  | amcgcr
  | amcntenclr0
  | amcntenclr1
  | amcntenset0
  | amcntenset1
  | amcr
  | amevtyper0 (n : Nat)
  | amevtyper1 (n : Nat)
  deriving DecidableEq, Repr

/-- The event counters, reached by MRS and MSR in AArch64 and by MRRC and MCRR in AArch32 (rules R125, R126). -/
inductive AmuCounter where
  | amevcntr0 (n : Nat)
  | amevcntr1 (n : Nat)
  deriving DecidableEq, Repr

/-- The AArch64 System registers the trap controls name. -/
inductive SysReg64 where
  | cpacrEl1
  | amu (r : AmuReg)
  | amuCounter (r : AmuCounter)
  | porEl0
  | svcr
  | smcrEl1
  | smcrEl2
  | zcrEl1
  | zcrEl2
  | fpcr
  | fpsr
  | fpexc32El2
  | fpmr
  deriving DecidableEq, Repr

/-- The AArch32 registers, reached by MRC, MCR, VMRS or VMSR, that the trap controls name. -/
inductive SysReg32 where
  | cpacr
  | amu (r : AmuReg)
  | fpscr
  | fpId (r : FpIdReg)
  deriving DecidableEq, Repr

/-- `MSR SVCRSM`, `MSR SVCRZA`, `MSR SVCRSMZA` (rules R92, R133). -/
inductive SvcrMsr where
  | sm
  | za
  | smza
  deriving DecidableEq, Repr

/-- An instruction described by what it does, as far as a trap control names it. -/
inductive CheckedInstr where
  /-- An MRS (`write` false) or MSR of a named AArch64 System register. -/
  | sysReg64 (r : SysReg64) (write : Bool)
  /-- A read or write of a named AArch32 register. -/
  | sysReg32 (r : SysReg32) (write : Bool)
  /-- An MRRC or MCRR of an event counter. -/
  | amuCounter32 (r : AmuCounter) (write : Bool)
  /-- An AArch64 access in the trace encoding space; `implemented` is the predicate of decision D28. -/
  | trace64 (op0 : BitVec 2) (op1 : BitVec 3) (crn : BitVec 4) (implemented : Bool)
  /-- An MRC or MCR in the trace encoding space. -/
  | trace32 (cpnum : BitVec 4) (opc1 : BitVec 3) (crn : BitVec 4) (implemented : Bool)
  /-- A load or store to a memory-mapped trace register (rule R132). -/
  | traceMemoryMapped
  | svcrMsr (which : SvcrMsr)
  | smeInstr
  | sveInstr
  /-- An instruction that uses V0-V31 or Q0-Q15 in any view. -/
  | simdFp
  /-- An instruction no control of CPTR_EL2 names. -/
  | other
  deriving DecidableEq, Repr

/-- The trace region of AArch64: op0=2, op1=1, CRn<0b1000 (rule R62). -/
def inTraceRegion64 (op0 : BitVec 2) (op1 : BitVec 3) (crn : BitVec 4) : Bool :=
  op0 == 2#2 && op1 == 1#3 && crn.ult 0b1000#4

/-- The trace region of AArch32: cpnum=14, opc1=1, CRn<0b1000 (rule R62). -/
def inTraceRegion32 (cpnum : BitVec 4) (opc1 : BitVec 3) (crn : BitVec 4) : Bool :=
  cpnum == 14#4 && opc1 == 1#3 && crn.ult 0b1000#4

/-- An AArch32 access to one of the five registers counts as use of the SIMD and floating-point registers, but for FPSID
only a write from EL1 or higher does (rules R138, R162). -/
def fpIdIsFpReg (a : FpIdAccess) (el : EL) : Bool :=
  match a.reg with
  | .fpsid => a.write && decide (el ≠ .el0)
  | .mvfr0 => true
  | .mvfr1 => true
  | .mvfr2 => true
  | .fpexc => true

/-- The class inputs of an access to an AArch64 System register (rules R122, R125, R127, R133, R139, R161). -/
def classify64 : SysReg64 → ClassInputs
  | .cpacrEl1 => { cpacr := true }
  | .amu _ => { amu := some .a64 }
  | .amuCounter _ => { amu := some .a64 }
  | .porEl0 => { porEl0 := true }
  | .svcr => { smeReg := true }
  | .smcrEl1 => { smeReg := true }
  | .smcrEl2 => { smeReg := true }
  | .zcrEl1 => { sveReg := true }
  | .zcrEl2 => { sveReg := true }
  | .fpcr => { fpReg := true }
  | .fpsr => { fpReg := true }
  | .fpexc32El2 => { fpReg := true }
  | .fpmr => { fpmr := true }

/-- The class inputs of an access to an AArch32 register (rules R122, R126, R138, R162). -/
def classify32 (write : Bool) (el : EL) : SysReg32 → ClassInputs
  | .cpacr => { cpacr := true }
  | .amu _ => { amu := some .a32MrcMcr }
  | .fpscr => { fpReg := true }
  | .fpId r => { fpReg := fpIdIsFpReg ⟨r, write⟩ el, fpId := some ⟨r, write⟩ }

/-- The class inputs of a described instruction executed at `el`; `trapped` is `TrappedByCPACR_Trace` of rule R9. -/
def classify (i : CheckedInstr) (el : EL) (trapped : Bool) : ClassInputs :=
  match i with
  | .sysReg64 r _ => classify64 r
  | .sysReg32 r write => classify32 write el r
  | .amuCounter32 _ _ => { amu := some .a32MrrcMcrr }
  | .trace64 op0 op1 crn implemented =>
    { trace := inTraceRegion64 op0 op1 crn && implemented, trappedByCpacrTrace := trapped }
  | .trace32 cpnum opc1 crn implemented =>
    { trace := inTraceRegion32 cpnum opc1 crn && implemented, trappedByCpacrTrace := trapped }
  | .traceMemoryMapped => {}
  | .svcrMsr _ => { smeReg := true }
  | .smeInstr => { smeInstr := true }
  | .sveInstr => { sveInstr := true }
  | .simdFp => { fpReg := true }
  | .other => {}

end Sys2Proof.Machine
end

