-- ==== Sys2Proof/Machine/TrapCheck.lean ====
section
/-!
DEFINITION. `CptrEl2Check`: whether CPTR_EL2 causes an instruction to be trapped to EL2, and with which EC value
(`41_trap_controls_e2h1.md`, `42_trap_controls_e2h0.md`). The verdict is this control's own (decision D20).

A test of a field answers `none` where it needs a bit of no value; a conjunct to the left of the field that fails keeps
the field from being read (rule R143, log 22).
-/

namespace Sys2Proof.Machine

/-- The answer of the check (rule R120). -/
inductive Verdict where
  | noTrap
  | trap (target : EL) (ec : Nat) (iss : Option Nat)
  | higherPriorityUndefined
  deriving DecidableEq, Repr

/-- A trap by CPTR_EL2 is taken to EL2 (rules R121 (e), R150 (e)). -/
def Verdict.toEL2 (ec : Nat) (iss : Option Nat) : Verdict := .trap .el2 ec iss

/-! ## The classes -/

/-- `inSMEclass(i)` (rules R133, R159). -/
def inSMEclass (s : State) (i : ClassInputs) : Bool :=
  i.smeInstr || (i.sveInstr && (!s.params.featSVE || s.env.streamingSVE)) || i.smeReg

/-- `inSVEclass(i)` (rules R139, R165). -/
def inSVEclass (s : State) (i : ClassInputs) : Bool := (i.sveInstr && !s.env.streamingSVE) || i.sveReg

/-- `inFPclass(i)` (rules R136, R161 to R163). -/
def inFPclass (s : State) (i : ClassInputs) : Bool :=
  i.fpReg || i.smeInstr || i.sveInstr || (s.params.featFPMR && i.fpmr)

/-! ## The fields -/

/-- `el in {EL0, EL1, EL2}`. -/
def belowEL3 (el : EL) : Bool := decide (el ≠ .el3)

/-- `EnTraps(v, el)`, the two-bit decode of SMEN, FPEN and ZEN (rules R134, R137, R140, R142). -/
def enTraps (tge : Bool) (v : BitVec 2) (el : EL) : Bool :=
  if v = 0b01#2 then tge && decide (el = .el0)
  else if v = 0b11#2 then false
  else belowEL3 el

/-- A field is tested only where its class input holds. -/
def whenClass (inClass : Bool) (test : Option Bool) : Option Bool := if inClass then test else some false

/-- `SMEN_traps` (rule R134). -/
def smenTraps (s : State) (c : Content) (i : ClassInputs) (el : EL) : Option Bool :=
  whenClass (s.params.featSME && inSMEclass s i) ((c.slice? 24 2).map fun v => enTraps s.env.tge v el)

/-- `ZEN_traps` (rule R140). -/
def zenTraps (s : State) (c : Content) (i : ClassInputs) (el : EL) : Option Bool :=
  whenClass (s.params.featSVE && inSVEclass s i) ((c.slice? 16 2).map fun v => enTraps s.env.tge v el)

/-- `FPEN_traps` (rule R137). -/
def fpenTraps (s : State) (c : Content) (i : ClassInputs) (el : EL) : Option Bool :=
  whenClass (inFPclass s i) ((c.slice? 20 2).map fun v => enTraps s.env.tge v el)

/-- `TCPAC_traps`, the same in both layouts (rules R123, R152). -/
def tcpacTraps (s : State) (c : Content) (i : ClassInputs) (el : EL) : Option Bool :=
  whenClass (i.cpacr && decide (el = .el1)) ((c.bit? 31).map fun b => b && !s.env.tge)

/-- `TAM_traps`, the same in both layouts (rules R124, R153). -/
def tamTraps (s : State) (c : Content) (i : ClassInputs) (el : EL) : Option Bool :=
  whenClass (s.params.featAMUv1 && i.amu.isSome && (decide (el = .el0) || decide (el = .el1))) (c.bit? 30)

/-- `E0POE_traps` (rule R127): the field is an enable, zero traps. -/
def e0poeTraps (s : State) (c : Content) (i : ClassInputs) (el : EL) (st : ExecState) : Option Bool :=
  whenClass (s.params.featS1POE && i.porEl0 && decide (st = .aarch64) && decide (el = .el0))
    ((c.bit? 29).map fun b => !b)

/-- `TTA_A_traps` (rule R130). -/
def ttaTrapsA (s : State) (c : Content) (i : ClassInputs) (el : EL) : Option Bool :=
  whenClass (s.params.traceSysreg && i.trace) ((c.bit? 28).map fun b =>
    b && ((!s.env.tge && belowEL3 el && !i.trappedByCpacrTrace) ||
          (s.env.tge && (decide (el = .el0) || decide (el = .el2)))))

/-- `TTA_B_traps` (rule R157): no TGE clause. -/
def ttaTrapsB (s : State) (c : Content) (i : ClassInputs) (el : EL) : Option Bool :=
  whenClass (s.params.traceSysreg && i.trace) ((c.bit? 20).map fun b =>
    b && belowEL3 el && !i.trappedByCpacrTrace)

/-- `TSM_traps` (rules R159, R168). -/
def tsmTraps (s : State) (c : Content) (i : ClassInputs) (el : EL) : Option Bool :=
  whenClass (s.params.featSME && inSMEclass s i) ((c.bit? 12).map fun b => b && belowEL3 el)

/-- `TZ_traps` (rules R165, R168). -/
def tzTraps (s : State) (c : Content) (i : ClassInputs) (el : EL) : Option Bool :=
  whenClass (s.params.featSVE && inSVEclass s i) ((c.bit? 8).map fun b => b && belowEL3 el)

/-- `TFP_traps` (rule R163). -/
def tfpTraps (s : State) (c : Content) (i : ClassInputs) (el : EL) : Option Bool :=
  whenClass (inFPclass s i) ((c.bit? 10).map fun b => b && belowEL3 el)

/-! ## The syndromes -/

/-- EC of TCPAC: 0x18 from AArch64, 0x03 from AArch32 (rules R122, R151). -/
def tcpacEc (st : ExecState) : Nat := if st = .aarch64 then 0x18 else 0x03

/-- EC of TTA: 0x18 from AArch64, 0x05 from AArch32 (rules R129, R155). -/
def ttaEc (st : ExecState) : Nat := if st = .aarch64 then 0x18 else 0x05

/-- EC of TAM by `i.AMUkind` (rules R124, R153). -/
def tamEc : Option AmuKind → Nat
  | some .a32MrcMcr => 0x03
  | some .a32MrrcMcrr => 0x04
  | some .a64 => 0x18
  | none => 0x18

/-- The answer where E0POE traps (rule R128): with TGE 1 the trap; with TGE 0 as the policy says, by default either
answer (draw number `d` decides). -/
def e0poeVerdict (s : State) (d : Nat) : Verdict :=
  if s.env.tge then .toEL2 0x18 none
  else
    match s.policy.e0poe with
    | .bothAdmitted => choose d (.toEL2 0x18 none) [.noTrap]
    | .requiresTge => .noTrap
    | .literal => .toEL2 0x18 none

/-! ## The check -/

/-- The tests of layout A in the order of rule R143, each with its answer. -/
def testsA (s : State) (c : Content) (i : ClassInputs) (el : EL) (st : ExecState) : List (Option Bool × Verdict) :=
  [(smenTraps s c i el, .toEL2 0x1D (some 0)),
   (zenTraps s c i el, .toEL2 0x19 none),
   (fpenTraps s c i el, .toEL2 0x07 none),
   (tcpacTraps s c i el, .toEL2 (tcpacEc st) none),
   (tamTraps s c i el, .toEL2 (tamEc i.amu) none),
   (e0poeTraps s c i el st, e0poeVerdict s (s.draws + 1)),
   (ttaTrapsA s c i el, .toEL2 (ttaEc st) none)]

/-- The tests of layout B in the order of rule R167, each with its answer. -/
def testsB (s : State) (c : Content) (i : ClassInputs) (el : EL) (st : ExecState) : List (Option Bool × Verdict) :=
  [(tsmTraps s c i el, .toEL2 0x1D (some 0)),
   (tzTraps s c i el, .toEL2 0x19 none),
   (tfpTraps s c i el, .toEL2 0x07 none),
   (tcpacTraps s c i el, .toEL2 (tcpacEc st) none),
   (tamTraps s c i el, .toEL2 (tamEc i.amu) none),
   (ttaTrapsB s c i el, .toEL2 (ttaEc st) none)]

/-- The answer of the first test that holds; none where a test before it needs a bit of no value. -/
def firstTrap : List (Option Bool × Verdict) → Option Verdict
  | [] => some .noTrap
  | (none, _) :: _ => none
  | (some true, v) :: _ => some v
  | (some false, _) :: r => firstTrap r

/-- The tests of the layout in force (rules R22, R167). -/
def testsOf (s : State) (c : Content) (i : ClassInputs) (el : EL) (st : ExecState) : List (Option Bool × Verdict) :=
  match layoutOf s.env.e2h with
  | .a => testsA s c i el st
  | .b => testsB s c i el st

/-- An EL0 access to a trace System register, where the trace unit implements FEAT_ETMv4 or ETE (rules R131, R158). -/
def undefinedTrace (s : State) (i : ClassInputs) (el : EL) : Bool :=
  i.trace && decide (el = .el0) && (s.params.featETMv4 || s.params.featETE)

/-- An EL0 access to AArch32 FPSID, MVFR0, MVFR1, MVFR2 or FPEXC (rules R138, R164). -/
def undefinedFpId (i : ClassInputs) (el : EL) (st : ExecState) : Bool :=
  i.fpId.isSome && decide (st = .aarch32) && decide (el = .el0)

/-- A write to AArch32 MVFR0, MVFR1 or MVFR2 (rules R138, R164); from EL0 `undefinedFpId` comes first. -/
def isMvfrWrite (i : ClassInputs) (st : ExecState) : Bool :=
  decide (st = .aarch32) &&
  match i.fpId with
  | some ⟨.mvfr0, true⟩ => true
  | some ⟨.mvfr1, true⟩ => true
  | some ⟨.mvfr2, true⟩ => true
  | _ => false

/-- The class inputs of such a write under the policies that answer it (entry U3). -/
def settleMvfr (s : State) (i : ClassInputs) (st : ExecState) : ClassInputs :=
  if isMvfrWrite i st then { i with fpReg := decide (s.policy.mvfrWrite = .trapped) } else i

/-- `CptrEl2Check(i, el, aarch)` (rules R120, R143, R167) and the state after its draws. -/
def cptrEl2Check (i : ClassInputs) (el : EL) (st : ExecState) (s : State) : Result (Verdict × State) :=
  if !s.env.el2Enabled || decide (el = .el3) then .next (.noTrap, s)
  else if undefinedTrace s i el then .next (.higherPriorityUndefined, s)
  else if undefinedFpId i el st then .next (.higherPriorityUndefined, s)
  else if isMvfrWrite i st && decide (s.policy.mvfrWrite = .refuse) then .refused .constrainedUnpredictable
  else
    match firstTrap (testsOf s (indirectRead s).1 (settleMvfr s i st) el st) with
    | none => .fault .unknownValue
    | some v => .next (v, s.withDraws (s.draws + 2))

/-- The check of a described instruction about to execute in this state, at `Env.EL` and in `Env.AArch`; the state of
rule R142 is refused first. -/
def checkHere (i : CheckedInstr) (s : State) : Result (Verdict × State) :=
  if unreachable s then .refused .unreachableState
  else cptrEl2Check (classify i s.env.el s.env.trappedByCpacrTrace) s.env.el s.env.aarch s

end Sys2Proof.Machine
end

