-- ==== Sys2Proof/Safety.lean ====
section
/-!
DEFINITION. The terms claims are stated in: the invariants of the machine, the states a run may start in, and the
optional consistency assumptions of the spec.
-/

namespace Sys2Proof.Machine

/-- A predicate of every content the storage pair holds: `base` and each entry of `W` (rule R68). -/
abbrev EveryContent (P : Content → Prop) (s : State) : Prop := P s.base ∧ ∀ e ∈ s.pending, P e.value

/-- The canonical forms: both memories have strictly rising addresses, and a bit of no value is kept as zero. -/
abbrev Canonical (s : State) : Prop :=
  Memory.wf s.text = true ∧ Memory.wf s.nvmem = true ∧ EveryContent (fun c => c.wf = true) s

/-- The pc is a multiple of 4 (rule R57). -/
abbrev PcAligned (s : State) : Prop := s.pc.extractLsb' 0 2 = 0#2

/-- Every register holds a value: X0 to X30, and every bit of every content of CPTR_EL2. -/
abbrev EveryRegisterHeld (s : State) : Prop :=
  s.xHeld = BitVec.allOnes 31 ∧ EveryContent (fun c => c.full = true) s

/-- Each bit of a content that holds a value and is reserved in the layout holds its should-be value (rule R32). -/
def Content.reservedAtShouldBe (p : Params) (l : Layout) (c : Content) : Bool :=
  (c.known &&& c.bits &&& res0Mask p l) == 0#64 && (c.known &&& ~~~c.bits &&& res1Mask p l) == 0#64

/-- Every content of the storage has its reserved bits at their should-be values in the layout in force. -/
abbrev ReservedAtShouldBe (s : State) : Prop :=
  EveryContent (fun c => c.reservedAtShouldBe s.params (layoutOf s.env.e2h) = true) s

/-- A state a run may be in: not the one rule R142 refuses, and an aligned pc (rule R57). -/
abbrev Launchable (s : State) : Prop := unreachable s = false ∧ PcAligned s

/-- There is room for the pc to advance (rule R57). -/
abbrev PcHasRoom (s : State) : Prop := s.pc.toNat + 4 < 2 ^ 64

/-- The optional consistency assumptions of `92_eei_decisions.md` section 2; no rule of the model builds them in. -/
abbrev Consistent (s : State) : Prop :=
  s.params.featAA64 = true ∧
  (s.env.el2Enabled = true → s.params.haveEL2 = true) ∧
  s.env.inHostEL2 = (s.env.el2Enabled && s.params.featVHE && s.env.e2h) ∧
  (s.env.e2h = true → s.params.featVHE = true) ∧
  (s.env.el2Enabled = false → s.env.nvx = 0b000#3) ∧
  (s.env.el = .el3 → s.params.haveEL3 = true) ∧
  (s.env.el = .el2 → s.params.haveEL2 = true)

/-- EL3's control stops an access that reaches it (rule R106). -/
abbrev EL3Forbids (s : State) : Prop := s.params.haveEL3 = true ∧ s.env.cptrEl3Tcpac = true

/-- The access to the CPTR_EL2 storage that a name makes is one no permission test stops (rules R38, R105, R190). -/
abbrev ReachesStorage (n : AccessorName) (s : State) : Prop :=
  s.params.featAA64 = true ∧
  ((s.env.el = .el2 ∧ ¬ EL3Forbids s ∧
      (n = .cpacrEl1 → s.params.featVHE = true ∧ s.env.inHostEL2 = true)) ∨
   (s.env.el = .el3 ∧ n = .cptrEl2))

/-- The access by the name CPACR_EL1 is one that reaches the register CPACR_EL1 at EL2 or EL3 (rule R105). -/
abbrev ReachesCpacrAbove (s : State) : Prop :=
  s.params.featVHE = true ∧ s.params.featAA64 = true ∧
  ((s.env.el = .el2 ∧ ¬ EL3Forbids s ∧ s.env.inHostEL2 = false) ∨ s.env.el = .el3)

/-- The fine-grained trap of CPACR_EL1 applies at EL1; `fgtBit` is that of HFGRTR_EL2 for a read, of HFGWTR_EL2 for a
write (rule R188). -/
abbrev FineGrainedTrapApplies (fgtBit : Bool) (s : State) : Prop :=
  s.env.el2Enabled = true ∧ s.params.featFGT = true ∧ (s.params.haveEL3 = false ∨ s.env.scrEl3FGTEn = true) ∧
    fgtBit = true

/-- At EL1 no EL2 trap catches an access by the name CPACR_EL1, whatever a draw gives: where EL2 is enabled every content
`IndirectRead` may give has TCPAC zero, and the fine-grained trap does not apply (rules R102, R103, R188). -/
abbrev NoEL2TrapOfCpacr (fgtBit : Bool) (s : State) : Prop :=
  (s.env.el2Enabled = true → EveryContent (fun c => c.bit? 31 = some false) s) ∧ ¬ FineGrainedTrapApplies fgtBit s

/-- At EL1 no test stops an access by the name CPACR_EL1, whatever a draw gives (rules R102, R103, R106, R188). -/
abbrev GuestMayReach (fgtBit : Bool) (s : State) : Prop :=
  s.params.featVHE = true ∧ s.params.featAA64 = true ∧ s.env.el = .el1 ∧ ¬ EL3Forbids s ∧ NoEL2TrapOfCpacr fgtBit s

/-! ## Vocabulary of the statements -/

/-- The MRS that reads by an accessor name. -/
def mrsBy : AccessorName → Nat → Instr
  | .cptrEl2, t => .mrsCptrEl2 t
  | .cpacrEl1, t => .mrsCpacrEl1 t

/-- The MSR that writes by an accessor name. -/
def msrBy : AccessorName → Nat → Instr
  | .cptrEl2, t => .msrCptrEl2 t
  | .cpacrEl1, t => .msrCpacrEl1 t

/-- What `DirectRead(name)` may give (rule R68). -/
abbrev DirectCandidate (n : AccessorName) (s : State) (c : Content) : Prop :=
  c = ownContent n s ∨ ∃ e ∈ s.pending, e.name ≠ n ∧ e.value = c

/-- What `IndirectRead()` may give (rule R68). -/
abbrev IndirectCandidate (s : State) (c : Content) : Prop := c = s.base ∨ ∃ e ∈ s.pending, e.value = c

/-- The write tests of rule R31 let the value through at a storage that is present. -/
abbrev WriteAdmitted (v : Word) (s : State) : Prop :=
  res0FromEL3 s = false ∧ (maskingApplies s && !s.env.e2h) = false ∧
    resViolation s.params (layoutOf s.env.e2h) v = false

/-- Bit `k` belongs to a field that rule R36 makes read-only. -/
abbrev ReadOnlyBit (s : State) (k : Nat) : Prop :=
  s.params.featSRMASK = true ∧ s.env.el = .el2 ∧ s.env.srMaskEnabledEL2 = true ∧ s.env.e2h = true ∧
    ∃ r ∈ layoutRows s.params .a,
      r.present = true ∧ s.env.cptrMask.bit r.field = true ∧ r.lo ≤ k ∧ k < r.lo + r.width

/-- The storage is synchronised and every bit of it holds a value. -/
abbrev Settled (s : State) : Prop := s.pending = [] ∧ s.base.full = true

/-- A two-bit enable traps at the current Exception level, below EL3 (rules R134, R137, R140). -/
def enableTraps (v : BitVec 2) (s : State) : Bool :=
  decide (v = 0b00#2) || decide (v = 0b10#2) || (decide (v = 0b01#2) && s.env.tge && decide (s.env.el = .el0))

/-- The control of SME, of SVE or of floating point traps at the current Exception level, below EL3: the two-bit enable
whose low bit is `enable` in layout A, the trap bit `bit` in layout B (rules R134, R137, R140, R159, R163, R165). -/
def controlTraps (enable bit : Nat) (s : State) : Bool :=
  if s.env.e2h then enableTraps (s.base.bits.extractLsb' enable 2) s else s.base.bits.getLsbD bit

/-- SMEN or TSM. -/
def smeControlTraps (s : State) : Bool := controlTraps 24 12 s
/-- ZEN or TZ. -/
def sveControlTraps (s : State) : Bool := controlTraps 16 8 s
/-- FPEN or TFP. -/
def fpControlTraps (s : State) : Bool := controlTraps 20 10 s

/-- In every content a check may see, some bit of the field of `width` bits from `lo` up holds no value; one is enough. -/
abbrev FieldUnknown (lo width : Nat) (s : State) : Prop :=
  EveryContent (fun c => ∃ k, k < width ∧ c.known.getLsbD (lo + k) = false) s

/-- The verdict of a check that gives one. -/
def verdict? (r : Result (Verdict × State)) : Option Verdict :=
  match r with
  | .next (v, _) => some v
  | .fault _ => none
  | .refused _ => none

/-- Two states that agree on everything but X registers, the pc, CPTR_EL2, CPACR_EL1, NVMem and the model's draw counter:
what no instruction writes. -/
abbrev SameSurroundings (s s' : State) : Prop :=
  s'.params = s.params ∧ s'.policy = s.policy ∧ s'.env = s.env ∧ s'.text = s.text

end Sys2Proof.Machine
end

