-- ==== Sys2Proof/Certificates/Slice0/Obligations.lean ====
section
/-!
DEFINITION. The statements about the machine, for the provers. Each formalises the rules of `spec/` its docstring cites.
-/

open Sys2Proof Sys2Proof.Machine

/-! ## Encoding -/

/-- The words of `95_test_vectors.md` section 2.3 decode to the instructions they stand for, and a neighbour is refused
(rules R69, R81, R84 to R87, R90). -/
def Obligations.KnownWordsDecode : Prop :=
  decodeWord 0xD53C1140#32 = .ok (.mrsCptrEl2 0) ∧ decodeWord 0xD53C1141#32 = .ok (.mrsCptrEl2 1) ∧
  decodeWord 0xD53C115E#32 = .ok (.mrsCptrEl2 30) ∧ decodeWord 0xD51C1142#32 = .ok (.msrCptrEl2 2) ∧
  decodeWord 0xD51C115F#32 = .ok (.msrCptrEl2 31) ∧ decodeWord 0xD5381045#32 = .ok (.mrsCpacrEl1 5) ∧
  decodeWord 0xD538105F#32 = .ok (.mrsCpacrEl1 31) ∧ decodeWord 0xD5181042#32 = .ok (.msrCpacrEl1 2) ∧
  decodeWord 0xD5033FDF#32 = .ok .sync ∧ decodeWord 0xD53C1160#32 = .error .registerNotInScope

/-- Decoding an encoded well-formed instruction gives it back, with what follows it (rules R81, R84 to R87). -/
def Obligations.DecodeOfEncode : Prop :=
  ∀ (i : Instr), i.WellFormed → ∀ rest : List Byte, decode (encode i ++ rest) = .ok (i, rest)

/-- A word that decodes is the encoding of the well-formed instruction it decodes to: each word has one meaning and no
bit of it is dropped (rules R81, R90). -/
def Obligations.DecodedWordIsTheEncoding : Prop :=
  ∀ (w : BitVec 32) (i : Instr), decodeWord w = .ok i → i.WellFormed ∧ encodeWord i = w

/-- At a state a run may be in, program text at the pc that is the encoding of none of the five instructions is refused
as not in scope (rule R90). -/
def Obligations.OtherWordsAreNotInScope : Prop :=
  ∀ (s : State) (bs : List Byte), Launchable s → fetchBytes s.pc.toNat s.text = some bs →
    (∀ i : Instr, i.WellFormed → encode i ≠ bs) → step s = .refused .notInScope

/-! ## The step -/

/-- When the bytes at the pc decode to an instruction, the step is the instruction's meaning at that state; the step
itself adds nothing (the pc is advanced by the meaning) (rules R57, R104). -/
def Obligations.StepRunsDecodedInstruction : Prop :=
  ∀ (s : State) (bs rest : List Byte) (i : Instr), Launchable s → fetchBytes s.pc.toNat s.text = some bs →
    decode bs = .ok (i, rest) → step s = exec i s

/-- What stops a step before it runs an instruction: the state of rule R142, a misaligned pc (rule R57), the end of the
program (decision D22). That it is a step that stops, that the end of the program is a fault, and the order of the three
are the model's: the spec refuses the state at launch and the pc as a program's (logs 20 and 19, DEDUCED), and ends the run
with Done (log 11, DEDUCED). -/
def Obligations.StepStopsBeforeFetch : Prop :=
  ∀ s : State,
    (s.env.el = .el1 ∧ s.env.tge = true ∧ s.env.el2Enabled = true → step s = .refused .unreachableState) ∧
    (¬ (s.env.el = .el1 ∧ s.env.tge = true ∧ s.env.el2Enabled = true) →
      (¬ PcAligned s → step s = .refused .misalignedPc) ∧
      (PcAligned s → fetchBytes s.pc.toNat s.text = none → step s = .fault .endOfProgram))

/-- The model's own load of a program (log 32, DESIGN CHOICE; no rule gives one): the word that `withFetchWord` places at
the pc is what the next fetch finds. The byte order is the model's on both sides and is not what this tests. -/
def Obligations.PlacedWordIsFetched : Prop :=
  ∀ (s : State) (w : Nat), w < 2 ^ 32 →
    fetchBytes (s.withFetchWord 32 w).pc.toNat (s.withFetchWord 32 w).text = some (bytesOfWord (BitVec.ofNat 32 w))

/-- An instruction at whose end the pc would pass 2^64 - 4 never completes, and `SYNC` there is refused. Rule R57 refuses a
program; that the step which shows it is what is refused is the model's (log 19, DEDUCED). -/
def Obligations.PcNeverWraps : Prop :=
  ∀ s : State, ¬ PcHasRoom s → (∀ (i : Instr) (s' : State), exec i s ≠ .next s') ∧ exec .sync s = .refused .pcWrap

/-! ## Who may access -/

/-- All four accessors are UNDEFINED when FEAT_AA64 is not implemented and at EL0 (rule R175 rows 1 and 2); for the
CPACR_EL1 name this presumes FEAT_VHE, without which rule R88 applies. -/
def Obligations.UndefinedWithoutAA64AndAtEL0 : Prop :=
  ∀ (s : State) (t : Nat), s.params.featAA64 = false ∨ s.env.el = .el0 →
    exec (.mrsCptrEl2 t) s = .fault .undefined ∧ exec (.msrCptrEl2 t) s = .fault .undefined ∧
    (s.params.featVHE = true →
      exec (.mrsCpacrEl1 t) s = .fault .undefined ∧ exec (.msrCpacrEl1 t) s = .fault .undefined)

/-- At EL1 an access by the name CPTR_EL2 is UNDEFINED unless bit 0 of NVx is one, in which case it is trapped to EL2
with EC 0x18 (rule R186). -/
def Obligations.GuestUseOfCptrNameIsCaught : Prop :=
  ∀ (s : State) (t : Nat), s.params.featAA64 = true → s.env.el = .el1 → ∀ i ∈ [Instr.mrsCptrEl2 t, Instr.msrCptrEl2 t],
    exec i s = if s.env.nvx.getLsbD 0 then .fault (.trap .el2 0x18 none) else .fault .undefined

/-- Without FEAT_VHE both CPACR_EL1 accessors are refused as not in the source, at every Exception level (rule R88). That
this comes first where FEAT_AA64 is absent too, of which rule R175 row 1 says Undefined, is the model's reading (log 21,
DEDUCED). -/
def Obligations.CpacrNameNeedsVHE : Prop :=
  ∀ (s : State) (t : Nat), s.params.featVHE = false →
    exec (.mrsCpacrEl1 t) s = .refused .notInSource ∧ exec (.msrCpacrEl1 t) s = .refused .notInSource

/-- EL3's control: at EL2 it stops the CPTR_EL2 accessors, and with FEAT_VHE the CPACR_EL1 accessors too; at EL1 it stops
those by the name CPACR_EL1, ahead of every EL2 trap with `EL3SDDUndefPriority`, after TCPAC and after the fine-grained
trap otherwise; its outcome is Undefined when one of the two predicates holds and a trap to EL3 with EC 0x18 otherwise
(rules R100 to R103, R106). The fine-grained trap where it applies is FineGrainedTrapOfCpacr's. -/
def Obligations.EL3ControlStopsAccessors : Prop :=
  ∀ (s : State) (t : Nat), s.params.featAA64 = true → EL3Forbids s →
    (s.env.el = .el2 →
      ∀ i : Instr, i ∈ [Instr.mrsCptrEl2 t, Instr.msrCptrEl2 t] ∨
          (s.params.featVHE = true ∧ i ∈ [Instr.mrsCpacrEl1 t, Instr.msrCpacrEl1 t]) →
        exec i s =
          if s.env.el3SDDUndefPriority || s.env.el3SDDUndef then .fault .undefined
          else .fault (.trap .el3 0x18 none)) ∧
    (s.params.featVHE = true → s.env.el = .el1 →
      (s.env.el3SDDUndefPriority = true →
        exec (.mrsCpacrEl1 t) s = .fault .undefined ∧ exec (.msrCpacrEl1 t) s = .fault .undefined) ∧
      (s.env.el3SDDUndefPriority = false →
        (s.env.el2Enabled = true → EveryContent (fun c => c.bit? 31 = some true) s →
          exec (.mrsCpacrEl1 t) s = .fault (.trap .el2 0x18 none) ∧
          exec (.msrCpacrEl1 t) s = .fault (.trap .el2 0x18 none)) ∧
        (NoEL2TrapOfCpacr s.env.hfgrtrCpacrEl1 s →
          exec (.mrsCpacrEl1 t) s =
            if s.env.el3SDDUndef then .fault .undefined else .fault (.trap .el3 0x18 none)) ∧
        (NoEL2TrapOfCpacr s.env.hfgwtrCpacrEl1 s →
          exec (.msrCpacrEl1 t) s =
            if s.env.el3SDDUndef then .fault .undefined else .fault (.trap .el3 0x18 none))))

/-- TCPAC at EL1: where EL2 is enabled and every content a trap check may see has bit 31 one, an access by the name
CPACR_EL1 is trapped to EL2 with EC 0x18; where every one of them has no value there, it faults; where EL2 is not
enabled, bit 31 is not tested (rules R102, R103, R175 row 6; vectors B7 to B11). -/
def Obligations.TcpacCatchesGuestAccess : Prop :=
  ∀ (s : State) (t : Nat), s.params.featVHE = true → s.params.featAA64 = true → s.env.el = .el1 →
    ¬ (s.params.haveEL3 = true ∧ s.env.el3SDDUndefPriority = true ∧ s.env.cptrEl3Tcpac = true) →
    (s.env.el2Enabled = true → EveryContent (fun c => c.bit? 31 = some true) s →
      exec (.mrsCpacrEl1 t) s = .fault (.trap .el2 0x18 none) ∧
      exec (.msrCpacrEl1 t) s = .fault (.trap .el2 0x18 none)) ∧
    (s.env.el2Enabled = true → EveryContent (fun c => c.bit? 31 = none) s →
      exec (.mrsCpacrEl1 t) s = .fault .unknownValue ∧ exec (.msrCpacrEl1 t) s = .fault .unknownValue) ∧
    (s.env.el2Enabled = false → ¬ EL3Forbids s → PcHasRoom s → s.env.nvx ≠ 0b111#3 →
      exec (.mrsCpacrEl1 t) s = .next ((writeX t s.cpacrEl1 s).withPc (s.pc + 4#64)) ∧
      ∀ v, readX t s = .next v → exec (.msrCpacrEl1 t) s = .next ((s.withCpacrEl1 v).withPc (s.pc + 4#64)))

/-- Fine-grained traps: where EL2 is enabled, FEAT_FGT is implemented and EL3 is absent or SCR_EL3.FGTEn is one,
HFGRTR_EL2.CPACR_EL1 traps EL1 reads and HFGWTR_EL2.CPACR_EL1 traps EL1 writes by the name CPACR_EL1 to EL2 with EC 0x18,
after CPTR_EL2.TCPAC and EL3's first test in order (rule R188). -/
def Obligations.FineGrainedTrapOfCpacr : Prop :=
  ∀ (s : State) (t : Nat), s.params.featVHE = true → s.params.featAA64 = true → s.env.el = .el1 →
    ¬ (s.params.haveEL3 = true ∧ s.env.el3SDDUndefPriority = true ∧ s.env.cptrEl3Tcpac = true) →
    s.env.el2Enabled = true → EveryContent (fun c => c.bit? 31 = some false) s →
    s.params.featFGT = true → (s.params.haveEL3 = false ∨ s.env.scrEl3FGTEn = true) →
    (s.env.hfgrtrCpacrEl1 = true → exec (.mrsCpacrEl1 t) s = .fault (.trap .el2 0x18 none)) ∧
    (s.env.hfgwtrCpacrEl1 = true → exec (.msrCpacrEl1 t) s = .fault (.trap .el2 0x18 none))

/-- Who can reach the storage: EL0 and EL1 never; EL2 by the name CPTR_EL2, and by the name CPACR_EL1 when in the host,
both unless EL3 forbids it; EL3 by the name CPTR_EL2 only (rules R38, R105, R190). -/
def Obligations.WhoReachesTheStorage : Prop :=
  ∀ (s : State) (bit : Bool) (n : AccessorName),
    ((∃ s', routeCptrEl2 s = .next (.cptr n, s')) ↔ n = .cptrEl2 ∧ ReachesStorage .cptrEl2 s) ∧
    ((∃ s', routeCpacrEl1 bit s = .next (.cptr n, s')) ↔ n = .cpacrEl1 ∧ ReachesStorage .cpacrEl1 s)

/-- At EL0 no accessor completes; at EL1 none that completes changes the CPTR_EL2 storage; at EL0 and EL1 an instruction
that changes it is `SYNC` (rules R38, R69, R190). -/
def Obligations.GuestNeverChangesTheStorage : Prop :=
  ∀ (i : Instr) (s s' : State), s.env.el = .el0 ∨ s.env.el = .el1 → exec i s = .next s' → i ≠ .sync →
    s.env.el = .el1 ∧ s'.base = s.base ∧ s'.pending = s.pending

/-! ## Reads -/

/-- An MRS that reaches the storage completes: `x[t]` takes the 64 bits of a content that rule R68 admits (zero stays in
XZR), the pc advances by 4, and nothing else of the spec's state changes (rules R30, R56, R57, R68, R100, R102). -/
def Obligations.MrsReadsTheStorage : Prop :=
  ∀ (n : AccessorName) (t : Nat) (s : State), ReachesStorage n s → res0FromEL3 s = false →
    EveryContent (fun c => c.full = true) s → PcHasRoom s →
    ∃ c, DirectCandidate n s c ∧
      exec (mrsBy n t) s = .next ((writeX t c.bits (s.withDraws (s.draws + 1))).withPc (s.pc + 4#64))

/-- An MRS that reaches the storage faults where no content rule R68 admits holds a value in every bit (rules R30, R35;
vector A15). -/
def Obligations.MrsOfUnknownContentFaults : Prop :=
  ∀ (n : AccessorName) (t : Nat) (s : State), ReachesStorage n s → res0FromEL3 s = false →
    EveryContent (fun c => c.full = false) s → exec (mrsBy n t) s = .fault .unknownValue

/-- With EL2 not implemented the register is RES0 from EL3: an MRS returns zero in all 64 bits, an MSR changes nothing,
and both complete (rule R33). -/
def Obligations.Res0FromEL3WithoutEL2 : Prop :=
  ∀ (s : State) (t : Nat), s.params.haveEL2 = false → s.env.el = .el3 → s.params.featAA64 = true → PcHasRoom s →
    exec (.mrsCptrEl2 t) s = .next ((writeX t 0#64 s).withPc (s.pc + 4#64)) ∧
    ∀ v, readX t s = .next v → exec (.msrCptrEl2 t) s = .next (s.withPc (s.pc + 4#64))

/-- By the name CPACR_EL1 at EL2 outside the host, and at EL3 always, both accessors reach the register CPACR_EL1 and
complete: the read gives its 64 bits, the write stores `x[t]` whole (rules R102, R103, R105). -/
def Obligations.CpacrNameAboveTheHost : Prop :=
  ∀ (s : State) (t : Nat), ReachesCpacrAbove s → PcHasRoom s →
    exec (.mrsCpacrEl1 t) s = .next ((writeX t s.cpacrEl1 s).withPc (s.pc + 4#64)) ∧
    ∀ v, readX t s = .next v → exec (.msrCpacrEl1 t) s = .next ((s.withCpacrEl1 v).withPc (s.pc + 4#64))

/-- A guest's read by the name CPACR_EL1 that no test stops completes: with NVx = 111 it gives the cell `NVMem(0x100)`
(any value where nothing is written there), otherwise CPACR_EL1; the CPTR_EL2 storage is not involved (rules R64, R102,
R187). -/
def Obligations.GuestReadOfCpacr : Prop :=
  ∀ (s : State) (t : Nat), GuestMayReach s.env.hfgrtrCpacrEl1 s → PcHasRoom s →
    ∃ (d : Nat) (v : Word), exec (.mrsCpacrEl1 t) s = .next ((writeX t v (s.withDraws d)).withPc (s.pc + 4#64)) ∧
      (s.env.nvx ≠ 0b111#3 → v = s.cpacrEl1) ∧
      (s.env.nvx = 0b111#3 → ∀ w, Memory.read 0x100 s.nvmem = some w → v = w)

/-- A guest's write by the name CPACR_EL1 that no test stops completes: with NVx = 111 it stores `x[t]` in the cell
`NVMem(0x100)`, otherwise in CPACR_EL1; nothing else changes but the pc (rules R65, R103, R187). -/
def Obligations.GuestWriteOfCpacr : Prop :=
  ∀ (s : State) (t : Nat) (v : Word), GuestMayReach s.env.hfgwtrCpacrEl1 s → PcHasRoom s → readX t s = .next v →
    ∃ d : Nat, exec (.msrCpacrEl1 t) s =
      .next (((if s.env.nvx = 0b111#3 then s.withNvmem (Memory.write 0x100 v s.nvmem)
        else s.withCpacrEl1 v).withDraws d).withPc (s.pc + 4#64))

/-! ## Writes -/

/-- An MSR that reaches the storage with a value rule R31 admits completes: one entry with its accessor name is appended
to `W`; a bit of a read-only field keeps what a content that rule R68 admits held there, every other bit takes its value
from `x[t]`; the pc advances by 4 and nothing else of the spec's state changes (rules R31, R36, R57, R68, R101, R103). -/
def Obligations.MsrAppendsAPendingWrite : Prop :=
  ∀ (n : AccessorName) (t : Nat) (s : State) (v : Word), ReachesStorage n s → WriteAdmitted v s →
    readX t s = .next v → PcHasRoom s →
    ∃ old new : Content, DirectCandidate n s old ∧
      exec (msrBy n t) s =
        .next (((s.withStorage s.base (s.pending ++ [⟨n, new⟩])).withDraws (s.draws + 1)).withPc (s.pc + 4#64)) ∧
      ∀ k, k < 64 →
        (ReadOnlyBit s k →
          new.bits.getLsbD k = old.bits.getLsbD k ∧ new.known.getLsbD k = old.known.getLsbD k) ∧
        (¬ ReadOnlyBit s k → new.bits.getLsbD k = v.getLsbD k ∧ new.known.getLsbD k = true)

/-- A write that reaches the storage is refused when it sets a RES0 bit or clears a RES1 bit of the layout in force
(rules R31, R32; vectors W2 to W13), whichever accessor name it uses. -/
def Obligations.ReservedBitWriteIsRefused : Prop :=
  ∀ (n : AccessorName) (t : Nat) (s : State) (v : Word) (k : Nat), ReachesStorage n s → res0FromEL3 s = false →
    (maskingApplies s && !s.env.e2h) = false → readX t s = .next v → k < 64 →
    ((res0Mask s.params (layoutOf s.env.e2h)).getLsbD k = true ∧ v.getLsbD k = true) ∨
      ((res1Mask s.params (layoutOf s.env.e2h)).getLsbD k = true ∧ v.getLsbD k = false) →
    exec (msrBy n t) s = .refused .resViolation

/-- With FEAT_SRMASK, masking enabled for EL2 and E2H zero, a write to CPTR_EL2 from EL2 is refused, and a read is not
affected (rule R37). -/
def Obligations.MaskedWriteInLayoutBIsRefused : Prop :=
  ∀ (n : AccessorName) (t : Nat) (s : State), ReachesStorage n s → s.env.el = .el2 →
    s.params.featSRMASK = true → s.env.srMaskEnabledEL2 = true → s.env.e2h = false →
    (∀ v, readX t s = .next v → exec (msrBy n t) s = .refused .srmaskLayoutB) ∧
    (EveryContent (fun c => c.full = true) s → PcHasRoom s →
      ∃ c, DirectCandidate n s c ∧
        exec (mrsBy n t) s = .next ((writeX t c.bits (s.withDraws (s.draws + 1))).withPc (s.pc + 4#64)))

/-- An MSR from a register that holds no value faults wherever no permission test stops it: where it reaches the storage,
CPACR_EL1 above the host, and from EL1 CPACR_EL1 or NVMem (decision D14, rules R101, R103; vector W21). That the fault comes
before rules R33 and R37 are looked at, which would let the write complete or refuse it, is the model's order (log 27,
DEDUCED). -/
def Obligations.MsrOfUnwrittenRegisterFaults : Prop :=
  ∀ (n : AccessorName) (t : Nat) (s : State), t < 31 → s.xHeld.getLsbD t = false →
    (ReachesStorage n s → exec (msrBy n t) s = .fault .unwrittenRegister) ∧
    (ReachesCpacrAbove s → exec (.msrCpacrEl1 t) s = .fault .unwrittenRegister) ∧
    (GuestMayReach s.env.hfgwtrCpacrEl1 s → exec (.msrCpacrEl1 t) s = .fault .unwrittenRegister)

/-! ## The masks and the register's views -/

/-- The masks of rule R27: the constants with every optional field present, and the bits that move for each absent
field: to RES0, but those of TSM and TZ to RES1. -/
def Obligations.MasksOfTheLayouts : Prop :=
  ∀ p : Params,
    namedMask p .a = 0xF3330000#64 &&&
      ~~~((if p.featAMUv1 then 0#64 else 0x40000000#64) ||| (if p.featS1POE then 0#64 else 0x20000000#64) |||
        (if p.traceSysreg then 0#64 else 0x10000000#64) ||| (if p.featSME then 0#64 else 0x03000000#64) |||
        (if p.featSVE then 0#64 else 0x00030000#64)) ∧
    res1Mask p .a = 0#64 ∧
    res0Mask p .a = 0xFFFFFFFF0CCCFFFF#64 |||
      ((if p.featAMUv1 then 0#64 else 0x40000000#64) ||| (if p.featS1POE then 0#64 else 0x20000000#64) |||
        (if p.traceSysreg then 0#64 else 0x10000000#64) ||| (if p.featSME then 0#64 else 0x03000000#64) |||
        (if p.featSVE then 0#64 else 0x00030000#64)) ∧
    namedMask p .b = 0xC0101500#64 &&&
      ~~~((if p.featAMUv1 then 0#64 else 0x40000000#64) ||| (if p.traceSysreg then 0#64 else 0x00100000#64) |||
        (if p.featSME then 0#64 else 0x1000#64) ||| (if p.featSVE then 0#64 else 0x100#64)) ∧
    res1Mask p .b = 0x22FF#64 ||| ((if p.featSME then 0#64 else 0x1000#64) ||| (if p.featSVE then 0#64 else 0x100#64)) ∧
    res0Mask p .b = 0xFFFFFFFF3FEFC800#64 |||
      ((if p.featAMUv1 then 0#64 else 0x40000000#64) ||| (if p.traceSysreg then 0#64 else 0x00100000#64))

/-- HCPTR is the low 32 bits of the same storage (rule R5). -/
def Obligations.HcptrIsTheLowHalf : Prop :=
  ∀ c : Content, c.full = true → c.hcptr = some (c.bits.setWidth 32)

/-- Register number 31: `x[31]` reads as 64 zero bits and a write to it does nothing (rule R56). -/
def Obligations.XzrReadsZeroAndDiscards : Prop :=
  ∀ (s : State) (v : Word), readX 31 s = .next 0#64 ∧ writeX 31 v s = s

/-- A write of an NVMem cell and a later read of it give the value written, and every other cell reads as before (rules
R64, R65). -/
def Obligations.NvmemReadAfterWrite : Prop :=
  ∀ (s : State) (off other : Nat) (v : Word),
    nvRead off (nvWrite off v s) = (v, nvWrite off v s) ∧
    (other ≠ off → Memory.read other (nvWrite off v s).nvmem = Memory.read other s.nvmem)

/-! ## Synchronisation and ordering -/

/-- `SYNC` completes at every state with room for the pc: no write stays pending; with none pending before, the storage
is as it was; with some, the storage is the content of the last write by one of the names; the pc advances by 4 and
nothing else of the spec's state changes (rules R57, R68, R69). -/
def Obligations.SyncPublishesALastWrite : Prop :=
  ∀ s : State, PcHasRoom s →
    ∃ (c : Content) (d : Nat), exec .sync s = .next (((s.withStorage c []).withDraws d).withPc (s.pc + 4#64)) ∧
      (s.pending = [] → c = s.base) ∧
      (s.pending ≠ [] → ∃ n, lastNamed n s.pending = some c)

/-- Accesses by one name are in program order: after a write by a name, with no write by the other name pending, a read
by the same name gives the value written (rule R68; vector O1). -/
def Obligations.SameNameReadSeesTheWrite : Prop :=
  ∀ (n : AccessorName) (t u : Nat) (s : State) (v : Word), ReachesStorage n s → WriteAdmitted v s →
    s.params.featSRMASK = false → readX t s = .next v → u < 31 → s.pc.toNat + 8 < 2 ^ 64 →
    (∀ e ∈ s.pending, e.name = n) →
    ∃ s1 s2, exec (msrBy n t) s = .next s1 ∧ exec (mrsBy n u) s1 = .next s2 ∧ readX u s2 = .next v

/-- A read by the other name without synchronisation gives the old content or the new one (rules R67, R68, R206; vector
O2). -/
def Obligations.CrossNameReadSeesOldOrNew : Prop :=
  ∀ (n m : AccessorName) (t u : Nat) (s : State) (v : Word), n ≠ m → ReachesStorage n s → ReachesStorage m s →
    WriteAdmitted v s → s.params.featSRMASK = false → readX t s = .next v → u < 31 → s.pc.toNat + 8 < 2 ^ 64 →
    Settled s →
    ∃ s1 s2, exec (msrBy n t) s = .next s1 ∧ exec (mrsBy m u) s1 = .next s2 ∧
      (readX u s2 = .next v ∨ readX u s2 = .next s.base.bits)

/-- A write by one name, a `SYNC` and a read by either name: the read gives the value written, provided no write by the
other name was pending (rules R68, R69, R206; vectors O3, O5). -/
def Obligations.SynchronisedReadSeesTheWrite : Prop :=
  ∀ (n m : AccessorName) (t u : Nat) (s : State) (v : Word), ReachesStorage n s → ReachesStorage m s →
    WriteAdmitted v s → s.params.featSRMASK = false → readX t s = .next v → u < 31 → s.pc.toNat + 12 < 2 ^ 64 →
    (∀ e ∈ s.pending, e.name = n) →
    ∃ s1 s2 s3, exec (msrBy n t) s = .next s1 ∧ exec .sync s1 = .next s2 ∧ exec (mrsBy m u) s2 = .next s3 ∧
      readX u s3 = .next v

/-! ## Frames and invariants -/

/-- The frame of the two MRS: every register but `x[t]` reads as before, the pc is advanced by 4, and no storage, no
memory, no parameter and no input is changed (rules R58, R73, R100, R102). -/
def Obligations.MrsFrame : Prop :=
  ∀ (n : AccessorName) (t : Nat) (s s' : State), exec (mrsBy n t) s = .next s' →
    (∀ r, r ≠ t → readX r s' = readX r s) ∧ s'.pc = s.pc + 4#64 ∧ s'.base = s.base ∧ s'.pending = s.pending ∧
    s'.cpacrEl1 = s.cpacrEl1 ∧ (∀ a, Memory.read a s'.nvmem = Memory.read a s.nvmem) ∧
    (∀ a, Memory.read a s'.text = Memory.read a s.text) ∧ SameSurroundings s s'

/-- The frame of the two MSR: every register reads as before and the pc is advanced by 4; `base`, the program text, the
parameters and the inputs are as before; of `W`, CPACR_EL1 and the NVMem cell at 0x100 at most the one the access reaches
changes, and no other cell of NVMem does (rules R101, R103, R105). -/
def Obligations.MsrFrame : Prop :=
  ∀ (n : AccessorName) (t : Nat) (s s' : State), exec (msrBy n t) s = .next s' →
    (∀ r, readX r s' = readX r s) ∧ s'.pc = s.pc + 4#64 ∧ s'.base = s.base ∧ SameSurroundings s s' ∧
    (∀ a, Memory.read a s'.text = Memory.read a s.text) ∧
    (∀ a, a ≠ 0x100 → Memory.read a s'.nvmem = Memory.read a s.nvmem) ∧
    (¬ ReachesStorage n s → s'.pending = s.pending) ∧
    (ReachesStorage n s → s'.cpacrEl1 = s.cpacrEl1 ∧ ∀ a, Memory.read a s'.nvmem = Memory.read a s.nvmem) ∧
    (s.env.el = .el1 → s.env.nvx = 0b111#3 → s'.cpacrEl1 = s.cpacrEl1) ∧
    (¬ (s.env.el = .el1 ∧ s.env.nvx = 0b111#3) → ∀ a, Memory.read a s'.nvmem = Memory.read a s.nvmem)

/-- No step changes the parameters, the policies, the inputs or the program text, and each advances the pc by 4 (rules
R57, R58, R72, decision D2). -/
def Obligations.StepKeepsSurroundings : Prop :=
  ∀ s s' : State, step s = .next s' → SameSurroundings s s' ∧ s'.pc = s.pc + 4#64

/-- Every step keeps the canonical forms of the two memories and of every content of the storage, and the alignment of
the pc (rules R35, R57, R64, R68; the canonical forms are the model's own). -/
def Obligations.StepKeepsCanonicalForms : Prop :=
  ∀ s s' : State, Canonical s → PcAligned s → step s = .next s' → Canonical s' ∧ PcAligned s'

/-- Every step keeps the reserved bits of every content of the storage at their should-be values in the layout in force
(rules R31, R32, R36). -/
def Obligations.StepKeepsReservedBits : Prop :=
  ∀ s s' : State, ReservedAtShouldBe s → step s = .next s' → ReservedAtShouldBe s'

/-- Every step from a state in which every register holds a value leaves every register holding one (rules R31, R35). -/
def Obligations.StepKeepsEveryRegisterHeld : Prop :=
  ∀ s s' : State, EveryRegisterHeld s → step s = .next s' → EveryRegisterHeld s'

/-- Where every register holds a value, no step ends for want of one (rules R30, R35, R101). -/
def Obligations.NoStepEndsForWantOfAValue : Prop :=
  ∀ s : State, EveryRegisterHeld s → step s ≠ .fault .unknownValue ∧ step s ≠ .fault .unwrittenRegister

/-- The state after reset meets every invariant and the optional consistency assumptions, with no write pending and no
program. All but the empty `W` is the model's choice: the parameters, the inputs, the held values and the pc (logs 1 to 5),
that no program is there (log 32), and that a step without one is a fault where decision D22 ends the run with Done (log
11, DEDUCED). -/
def Obligations.ResetMeetsTheInvariants : Prop :=
  Canonical State.reset ∧ PcAligned State.reset ∧ EveryRegisterHeld State.reset ∧ ReservedAtShouldBe State.reset ∧
  Consistent State.reset ∧ State.reset.pending = [] ∧ step State.reset = .fault .endOfProgram

/-- A Warm reset empties `W`; under `UNKNOWN_POLICY = fault` no bit of the register holds a value, under `draw` every bit
holds one and the reserved bits are at their should-be values (rules R34, R35, R200). -/
def Obligations.WarmResetLeavesTheRegisterUnknown : Prop :=
  ∀ s : State, (warmReset s).pending = [] ∧
    (s.policy.unknown = .fault → ∀ k, k < 64 → (warmReset s).base.known.getLsbD k = false) ∧
    (s.policy.unknown = .draw → (warmReset s).base.full = true ∧ ReservedAtShouldBe (warmReset s))

/-! ## The trap check -/

/-- The register has no effect if EL2 is not enabled in the current Security state: no check gives a trap, and at EL1 both
CPACR_EL1 accessors have the outcome they have with any other content of the storage, the same stop or the same next state
with that content left in it (rule R6). -/
def Obligations.NoEffectWithoutEL2 : Prop :=
  ∀ s : State, s.env.el2Enabled = false →
    (∀ (i : ClassInputs) (el : EL) (st : ExecState), cptrEl2Check i el st s = .next (.noTrap, s)) ∧
    ∀ (t : Nat) (c : Content) (w : List PendingWrite), s.env.el = .el1 →
      ∀ i ∈ [Instr.mrsCpacrEl1 t, Instr.msrCpacrEl1 t],
        exec i (s.withStorage c w) = andThen (exec i s) fun s' => .next (s'.withStorage c w)

/-- A check changes nothing but the model's draw counter (log 14); where it names a trap the target is EL2 and the EC is
one of the seven of rule R170; at EL3 nothing is trapped (rules R121 (c) and (e), R150, R170; that nothing is trapped at
EL3 is the spec's own inference, "so execution at EL3 is never trapped by CPTR_EL2", decision D27). -/
def Obligations.CheckTargetsEL2AndChangesNothing : Prop :=
  ∀ (i : ClassInputs) (el : EL) (st : ExecState) (s s' : State) (v : Verdict),
    cptrEl2Check i el st s = .next (v, s') →
    (∃ d, s' = s.withDraws d) ∧ (el = .el3 → v = .noTrap) ∧
    ∀ target ec iss, v = .trap target ec iss → target = .el2 ∧ ec ∈ [0x03, 0x04, 0x05, 0x07, 0x18, 0x19, 0x1D]

/-- The two-bit decode shared by SMEN, FPEN and ZEN, value by value and level by level (rule R142), and the state that
rule refuses at launch; the model, which has no launch, refuses it at each step and each check (log 20, DEDUCED). -/
def Obligations.TwoBitEnableDecode : Prop :=
  (∀ (tge : Bool) (el : EL), enTraps tge 0b00#2 el = decide (el ≠ .el3) ∧ enTraps tge 0b10#2 el = decide (el ≠ .el3) ∧
    enTraps tge 0b11#2 el = false ∧ enTraps tge 0b01#2 el = (tge && decide (el = .el0))) ∧
  (∀ (s : State) (i : CheckedInstr), s.env.el = .el1 → s.env.tge = true → s.env.el2Enabled = true →
    step s = .refused .unreachableState ∧ checkHere i s = .refused .unreachableState)

/-- Layout A, the two-bit enables in their precedence: an instruction of none of the System register classes is trapped
with EC 0x1D and ISS 0 by SMEN, else with EC 0x19 by ZEN, else with EC 0x07 by FPEN, else not at all. Of each enable the
values 00 and 10 trap EL2, EL1 and EL0, the value 01 traps EL0 where TGE is 1 and nothing else, the value 11 nothing
(rules R133 to R140, R143, R179). EL1 with TGE 1, of which those values do not speak, is left to TwoBitEnableDecode. -/
def Obligations.EnablesOfLayoutA : Prop :=
  ∀ (sme sve smeReg sveReg fp fpmr : Bool) (el : EL) (st : ExecState) (s : State) (traps : BitVec 2 → Bool),
    Settled s → s.env.el2Enabled = true → s.env.e2h = true → el ≠ .el3 → ¬ (el = .el1 ∧ s.env.tge = true) →
    (traps 0b00#2 = true ∧ traps 0b10#2 = true ∧ traps 0b11#2 = false ∧
      traps 0b01#2 = (s.env.tge && decide (el = .el0))) →
    verdict? (cptrEl2Check
      { smeInstr := sme, sveInstr := sve, smeReg := smeReg, sveReg := sveReg, fpReg := fp, fpmr := fpmr } el st s) =
    some
      (if s.params.featSME && (sme || (sve && (!s.params.featSVE || s.env.streamingSVE)) || smeReg) &&
          traps (s.base.bits.extractLsb' 24 2) then .trap .el2 0x1D (some 0)
       else if s.params.featSVE && ((sve && !s.env.streamingSVE) || sveReg) &&
          traps (s.base.bits.extractLsb' 16 2) then .trap .el2 0x19 none
       else if (fp || sme || sve || (s.params.featFPMR && fpmr)) &&
          traps (s.base.bits.extractLsb' 20 2) then .trap .el2 0x07 none
       else .noTrap)

/-- Layout B, the trap bits in their precedence: TSM (bit 12) with EC 0x1D and ISS 0, else TZ (bit 8) with EC 0x19, else
TFP (bit 10) with EC 0x07, else no trap; TGE plays no part (rules R159 to R168, R179). -/
def Obligations.TrapBitsOfLayoutB : Prop :=
  ∀ (sme sve smeReg sveReg fp fpmr : Bool) (el : EL) (st : ExecState) (s : State),
    Settled s → s.env.el2Enabled = true → s.env.e2h = false → el ≠ .el3 →
    verdict? (cptrEl2Check
      { smeInstr := sme, sveInstr := sve, smeReg := smeReg, sveReg := sveReg, fpReg := fp, fpmr := fpmr } el st s) =
    some
      (if s.params.featSME && (sme || (sve && (!s.params.featSVE || s.env.streamingSVE)) || smeReg) &&
          s.base.bits.getLsbD 12 then .trap .el2 0x1D (some 0)
       else if s.params.featSVE && ((sve && !s.env.streamingSVE) || sveReg) &&
          s.base.bits.getLsbD 8 then .trap .el2 0x19 none
       else if (fp || sme || sve || (s.params.featFPMR && fpmr)) && s.base.bits.getLsbD 10 then .trap .el2 0x07 none
       else .noTrap)

/-- Which named accesses the controls of SME, SVE and floating point catch at EL0, EL1 and EL2, in both layouts: FPEN or TFP
those of AArch64 FPCR, FPSR, FPEXC32_EL2, the SIMD and floating-point registers, FPMR where FEAT_FPMR is implemented, and
the AArch32 registers of rule R162 above EL0 (EC 0x07); SMEN or TSM those of SVCR, SMCR_EL1 and SMCR_EL2 and the three MSR
forms of SVCR (EC 0x1D, ISS 0); ZEN or TZ those of ZCR_EL1 and ZCR_EL2 (EC 0x19); and none of them where its control does
not trap (rules R133, R136, R139, R159, R161, R162, R165). Rules R161 and R162 are layout B's: that FPEN catches TFP's
register list in layout A is the spec's decision D20 (b), not its source (log 29). -/
def Obligations.NamedAccessesAreTrapped : Prop :=
  ∀ (s : State) (write : Bool) (k : SvcrMsr), Settled s → s.env.el2Enabled = true → s.env.el ≠ .el3 →
    unreachable s = false →
    (∀ i ∈ [CheckedInstr.sysReg64 .fpcr write, .sysReg64 .fpsr write, .sysReg64 .fpexc32El2 write, .simdFp,
        .sysReg32 .fpscr write],
      verdict? (checkHere i s) = some (if fpControlTraps s then .trap .el2 0x07 none else .noTrap)) ∧
    verdict? (checkHere (.sysReg64 .fpmr write) s) =
      some (if s.params.featFPMR && fpControlTraps s then .trap .el2 0x07 none else .noTrap) ∧
    (s.env.el ≠ .el0 → s.env.aarch = .aarch32 →
      ∀ i ∈ [CheckedInstr.sysReg32 (.fpId .mvfr0) false, .sysReg32 (.fpId .mvfr1) false,
          .sysReg32 (.fpId .mvfr2) false, .sysReg32 (.fpId .fpexc) write, .sysReg32 (.fpId .fpsid) true],
        verdict? (checkHere i s) = some (if fpControlTraps s then .trap .el2 0x07 none else .noTrap)) ∧
    (∀ i ∈ [CheckedInstr.sysReg64 .svcr write, .sysReg64 .smcrEl1 write, .sysReg64 .smcrEl2 write, .svcrMsr k],
      verdict? (checkHere i s) =
        some (if s.params.featSME && smeControlTraps s then .trap .el2 0x1D (some 0) else .noTrap)) ∧
    (∀ i ∈ [CheckedInstr.sysReg64 .zcrEl1 write, .sysReg64 .zcrEl2 write],
      verdict? (checkHere i s) =
        some (if s.params.featSVE && sveControlTraps s then .trap .el2 0x19 none else .noTrap))

/-- TCPAC, bit 31 in both layouts: it traps accesses to CPACR_EL1 (EC 0x18) and CPACR (EC 0x03) from EL1 to EL2 unless TGE
is 1, and from no other level (rules R122, R123, R151, R152). -/
def Obligations.TcpacField : Prop :=
  ∀ (el : EL) (st : ExecState) (s : State), Settled s → s.env.el2Enabled = true →
    verdict? (cptrEl2Check { cpacr := true } el st s) =
      some (if el = .el1 ∧ s.base.bits.getLsbD 31 = true ∧ s.env.tge = false then
        .trap .el2 (if st = .aarch64 then 0x18 else 0x03) none else .noTrap)

/-- TAM, bit 30 in both layouts: with FEAT_AMUv1 it traps EL1 and EL0 accesses to the Activity Monitors registers, with
EC 0x18, 0x03 or 0x04 by the kind of access, and from no other level (rules R124, R153). -/
def Obligations.TamField : Prop :=
  ∀ (k : AmuKind) (el : EL) (st : ExecState) (s : State), Settled s → s.env.el2Enabled = true →
    verdict? (cptrEl2Check { amu := some k } el st s) =
      some (if s.params.featAMUv1 = true ∧ (el = .el0 ∨ el = .el1) ∧ s.base.bits.getLsbD 30 = true then
        .trap .el2 (match k with | .a64 => 0x18 | .a32MrcMcr => 0x03 | .a32MrrcMcrr => 0x04) none else .noTrap)

/-- The Activity Monitors registers of both Execution states are of the class TAM traps, with the EC of their lists (rules
R125, R126). -/
def Obligations.ActivityMonitorRegisters : Prop :=
  ∀ (r : AmuReg) (c : AmuCounter) (write : Bool) (s : State), Settled s → s.env.el2Enabled = true →
    unreachable s = false → s.params.featAMUv1 = true → s.env.el = .el0 ∨ s.env.el = .el1 →
    s.base.bits.getLsbD 30 = true →
    verdict? (checkHere (.sysReg64 (.amu r) write) s) = some (.trap .el2 0x18 none) ∧
    verdict? (checkHere (.sysReg64 (.amuCounter c) write) s) = some (.trap .el2 0x18 none) ∧
    verdict? (checkHere (.sysReg32 (.amu r) write) s) = some (.trap .el2 0x03 none) ∧
    verdict? (checkHere (.amuCounter32 c write) s) = some (.trap .el2 0x04 none)

/-- E0POE, bit 29 of layout A: with FEAT_S1POE, zero traps AArch64 accesses to POR_EL0 from EL0 with EC 0x18 when TGE is
1; with TGE 0 the trap and no trap are both admitted; one traps nothing; layout B has no such field (rules R127, R128,
R154). -/
def Obligations.E0poeField : Prop :=
  ∀ (el : EL) (st : ExecState) (s : State), Settled s → s.env.el2Enabled = true →
    ((s.env.e2h = true ∧ s.params.featS1POE = true ∧ st = .aarch64 ∧ el = .el0 ∧ s.base.bits.getLsbD 29 = false) →
      (s.env.tge = true → verdict? (cptrEl2Check { porEl0 := true } el st s) = some (.trap .el2 0x18 none)) ∧
      (s.env.tge = false → verdict? (cptrEl2Check { porEl0 := true } el st s) = some (.trap .el2 0x18 none) ∨
        verdict? (cptrEl2Check { porEl0 := true } el st s) = some .noTrap)) ∧
    (¬ (s.env.e2h = true ∧ s.params.featS1POE = true ∧ st = .aarch64 ∧ el = .el0 ∧
        s.base.bits.getLsbD 29 = false) →
      verdict? (cptrEl2Check { porEl0 := true } el st s) = some .noTrap)

/-- TTA, bit 28 of layout A and bit 20 of layout B: EL0 accesses are UNDEFINED with higher priority where the trace unit
implements FEAT_ETMv4 or ETE; otherwise an access that CPACR does not trap is trapped from EL0, EL1 and EL2; in layout A
with TGE 1, any access from EL0 and EL2 and none from EL1; EC 0x18 from AArch64 and 0x05 from AArch32 (rules R129 to
R131, R155 to R158). -/
def Obligations.TtaField : Prop :=
  ∀ (byCpacr : Bool) (el : EL) (st : ExecState) (s : State), Settled s → s.env.el2Enabled = true → el ≠ .el3 →
    verdict? (cptrEl2Check { trace := true, trappedByCpacrTrace := byCpacr } el st s) =
      some (if el = .el0 ∧ (s.params.featETMv4 = true ∨ s.params.featETE = true) then .higherPriorityUndefined
        else if s.params.traceSysreg = true ∧
            ((s.env.e2h = true ∧ s.base.bits.getLsbD 28 = true ∧
                ((s.env.tge = false ∧ byCpacr = false) ∨ (s.env.tge = true ∧ el ≠ .el1))) ∨
             (s.env.e2h = false ∧ s.base.bits.getLsbD 20 = true ∧ byCpacr = false)) then
          .trap .el2 (if st = .aarch64 then 0x18 else 0x05) none
        else .noTrap)

/-- An access outside the trace region, to no implemented trace register, or through the memory-mapped interface is never
trapped by CPTR_EL2 (rules R62, R129, R132). -/
def Obligations.TraceRegionIsNecessary : Prop :=
  ∀ (op0 : BitVec 2) (op1 : BitVec 3) (crn : BitVec 4) (cp : BitVec 4) (implemented : Bool) (s : State),
    unreachable s = false →
    verdict? (checkHere .traceMemoryMapped s) = some .noTrap ∧
    (¬ (op0 = 2#2 ∧ op1 = 1#3 ∧ crn.toNat < 8 ∧ implemented = true) →
      verdict? (checkHere (.trace64 op0 op1 crn implemented) s) = some .noTrap) ∧
    (¬ (cp = 14#4 ∧ op1 = 1#3 ∧ crn.toNat < 8 ∧ implemented = true) →
      verdict? (checkHere (.trace32 cp op1 crn implemented) s) = some .noTrap)

/-- The five AArch32 registers of the note of rule R138, in both layouts: from EL0 an UNDEFINED exception of higher priority
applies; a write to MVFR0, MVFR1 or MVFR2 from EL1 or EL2 is refused as CONSTRAINED UNPREDICTABLE (under this spec's
policy); a write to FPSID from EL1 or EL2 counts as use of the SIMD and floating-point registers, so FPEN or TFP traps it,
and nothing does where they do not (rules R138, R162, R164; conflict C5). -/
def Obligations.FpIdRegisterAccesses : Prop :=
  ∀ (r : FpIdReg) (write : Bool) (s : State), s.env.el2Enabled = true → unreachable s = false → s.env.aarch = .aarch32 →
    (s.env.el = .el0 → verdict? (checkHere (.sysReg32 (.fpId r) write) s) = some .higherPriorityUndefined) ∧
    (s.env.el = .el1 ∨ s.env.el = .el2 → s.policy.mvfrWrite = .refuse → r = .mvfr0 ∨ r = .mvfr1 ∨ r = .mvfr2 →
      checkHere (.sysReg32 (.fpId r) true) s = .refused .constrainedUnpredictable) ∧
    (s.env.el = .el1 ∨ s.env.el = .el2 → Settled s →
      verdict? (checkHere (.sysReg32 (.fpId .fpsid) true) s) =
        some (if fpControlTraps s then .trap .el2 0x07 none else .noTrap))

/-- A check that needs a field of which a bit holds no value faults, one bit of a two-bit field being enough, for each class
on its own field: SMEN or TSM, ZEN or TZ, FPEN or TFP, TCPAC, TAM, E0POE, TTA; a check of no class faults on no content
(rules R35, R121 (d), R143, R150 (d), R167; vector T40). That the field is read before TGE is tested is the model's order
(log 22, PRESUMED). -/
def Obligations.CheckOfUnknownFieldFaults : Prop :=
  ∀ (el : EL) (st : ExecState) (s : State) (k : AmuKind) (byCpacr : Bool), s.env.el2Enabled = true → el ≠ .el3 →
    ((if s.env.e2h then FieldUnknown 24 2 s else FieldUnknown 12 1 s) → s.params.featSME = true →
      cptrEl2Check { smeInstr := true } el st s = .fault .unknownValue ∧
      cptrEl2Check { smeReg := true } el st s = .fault .unknownValue ∧
      (s.params.featSVE = false ∨ s.env.streamingSVE = true →
        cptrEl2Check { sveInstr := true } el st s = .fault .unknownValue)) ∧
    ((if s.env.e2h then FieldUnknown 16 2 s else FieldUnknown 8 1 s) → s.params.featSVE = true →
      cptrEl2Check { sveReg := true } el st s = .fault .unknownValue ∧
      (s.env.streamingSVE = false → cptrEl2Check { sveInstr := true } el st s = .fault .unknownValue)) ∧
    ((if s.env.e2h then FieldUnknown 20 2 s else FieldUnknown 10 1 s) →
      cptrEl2Check { fpReg := true } el st s = .fault .unknownValue ∧
      (s.params.featFPMR = true → cptrEl2Check { fpmr := true } el st s = .fault .unknownValue)) ∧
    (FieldUnknown 31 1 s → el = .el1 → cptrEl2Check { cpacr := true } el st s = .fault .unknownValue) ∧
    (FieldUnknown 30 1 s → s.params.featAMUv1 = true → el = .el0 ∨ el = .el1 →
      cptrEl2Check { amu := some k } el st s = .fault .unknownValue) ∧
    (FieldUnknown 29 1 s → s.env.e2h = true → s.params.featS1POE = true → el = .el0 → st = .aarch64 →
      cptrEl2Check { porEl0 := true } el st s = .fault .unknownValue) ∧
    ((if s.env.e2h then FieldUnknown 28 1 s else FieldUnknown 20 1 s) → s.params.traceSysreg = true →
      ¬ (el = .el0 ∧ (s.params.featETMv4 = true ∨ s.params.featETE = true)) →
      cptrEl2Check { trace := true, trappedByCpacrTrace := byCpacr } el st s = .fault .unknownValue) ∧
    verdict? (cptrEl2Check {} el st s) = some .noTrap

/-- The values under which CPTR_EL2 traps nothing, for each layout and set of features: with the storage synchronised at
the value, a check that gives a verdict gives no trap (rule R205). -/
def Obligations.TrapNothingValues : Prop :=
  ∀ (i : ClassInputs) (el : EL) (st : ExecState) (s : State) (v : Verdict), Settled s →
    s.base.bits =
      (if s.env.e2h then
        0x00300000#64 ||| (if s.params.featS1POE then 0x20000000#64 else 0#64) |||
          (if s.params.featSME then 0x03000000#64 else 0#64) ||| (if s.params.featSVE then 0x00030000#64 else 0#64)
       else
        0x22FF#64 ||| (if s.params.featSME then 0#64 else 0x1000#64) |||
          (if s.params.featSVE then 0#64 else 0x100#64)) →
    verdict? (cptrEl2Check i el st s) = some v → v = .noTrap ∨ v = .higherPriorityUndefined

/-- A check made while writes are pending answers as if the storage were synchronised at one of the contents
`IndirectRead` may give; with none pending, that is `base` alone (rules R68, R70, R207). -/
def Obligations.CheckUsesAnAdmittedContent : Prop :=
  ∀ (i : ClassInputs) (el : EL) (st : ExecState) (s : State),
    ∃ c, IndirectCandidate s c ∧
      verdict? (cptrEl2Check i el st s) = verdict? (cptrEl2Check i el st (s.withStorage c [])) ∧
      ∀ f, (cptrEl2Check i el st s = .fault f ↔ cptrEl2Check i el st (s.withStorage c []) = .fault f)

/-- Reserved bits have no effect on any trap rule: two synchronised contents that agree on the bits of the named fields
of the layout in force give the same answer to every check (rules R25, R32). -/
def Obligations.ReservedBitsTrapNothing : Prop :=
  ∀ (i : ClassInputs) (el : EL) (st : ExecState) (s : State) (c c' : Content),
    c.bits &&& namedMask s.params (layoutOf s.env.e2h) = c'.bits &&& namedMask s.params (layoutOf s.env.e2h) →
    c.known &&& namedMask s.params (layoutOf s.env.e2h) = c'.known &&& namedMask s.params (layoutOf s.env.e2h) →
    verdict? (cptrEl2Check i el st (s.withStorage c [])) = verdict? (cptrEl2Check i el st (s.withStorage c' [])) ∧
    (cptrEl2Check i el st (s.withStorage c []) = .fault .unknownValue ↔
      cptrEl2Check i el st (s.withStorage c' []) = .fault .unknownValue)
end

