-- ==== Sys2Proof/Laws/State.lean ====
section
/-!
SUPPORT. One lemma per field per update of State, true by `rfl`.
-/

namespace Sys2Proof.Machine

variable (s : State)

@[simp] theorem State.withPc_params (v : Word) : (s.withPc v).params = s.params := rfl
@[simp] theorem State.withPc_policy (v : Word) : (s.withPc v).policy = s.policy := rfl
@[simp] theorem State.withPc_env (v : Word) : (s.withPc v).env = s.env := rfl
@[simp] theorem State.withPc_x (v : Word) : (s.withPc v).x = s.x := rfl
@[simp] theorem State.withPc_xHeld (v : Word) : (s.withPc v).xHeld = s.xHeld := rfl
@[simp] theorem State.withPc_pc (v : Word) : (s.withPc v).pc = v := rfl
@[simp] theorem State.withPc_base (v : Word) : (s.withPc v).base = s.base := rfl
@[simp] theorem State.withPc_pending (v : Word) : (s.withPc v).pending = s.pending := rfl
@[simp] theorem State.withPc_cpacrEl1 (v : Word) : (s.withPc v).cpacrEl1 = s.cpacrEl1 := rfl
@[simp] theorem State.withPc_nvmem (v : Word) : (s.withPc v).nvmem = s.nvmem := rfl
@[simp] theorem State.withPc_text (v : Word) : (s.withPc v).text = s.text := rfl
@[simp] theorem State.withPc_draws (v : Word) : (s.withPc v).draws = s.draws := rfl

@[simp] theorem State.withRegs_params (x : Vector Word 31) (held : BitVec 31) : (s.withRegs x held).params = s.params := rfl
@[simp] theorem State.withRegs_policy (x : Vector Word 31) (held : BitVec 31) : (s.withRegs x held).policy = s.policy := rfl
@[simp] theorem State.withRegs_env (x : Vector Word 31) (held : BitVec 31) : (s.withRegs x held).env = s.env := rfl
@[simp] theorem State.withRegs_x (x : Vector Word 31) (held : BitVec 31) : (s.withRegs x held).x = x := rfl
@[simp] theorem State.withRegs_xHeld (x : Vector Word 31) (held : BitVec 31) : (s.withRegs x held).xHeld = held := rfl
@[simp] theorem State.withRegs_pc (x : Vector Word 31) (held : BitVec 31) : (s.withRegs x held).pc = s.pc := rfl
@[simp] theorem State.withRegs_base (x : Vector Word 31) (held : BitVec 31) : (s.withRegs x held).base = s.base := rfl
@[simp] theorem State.withRegs_pending (x : Vector Word 31) (held : BitVec 31) : (s.withRegs x held).pending = s.pending := rfl
@[simp] theorem State.withRegs_cpacrEl1 (x : Vector Word 31) (held : BitVec 31) : (s.withRegs x held).cpacrEl1 = s.cpacrEl1 := rfl
@[simp] theorem State.withRegs_nvmem (x : Vector Word 31) (held : BitVec 31) : (s.withRegs x held).nvmem = s.nvmem := rfl
@[simp] theorem State.withRegs_text (x : Vector Word 31) (held : BitVec 31) : (s.withRegs x held).text = s.text := rfl
@[simp] theorem State.withRegs_draws (x : Vector Word 31) (held : BitVec 31) : (s.withRegs x held).draws = s.draws := rfl

@[simp] theorem State.withStorage_params (b : Content) (w : List PendingWrite) : (s.withStorage b w).params = s.params := rfl
@[simp] theorem State.withStorage_policy (b : Content) (w : List PendingWrite) : (s.withStorage b w).policy = s.policy := rfl
@[simp] theorem State.withStorage_env (b : Content) (w : List PendingWrite) : (s.withStorage b w).env = s.env := rfl
@[simp] theorem State.withStorage_x (b : Content) (w : List PendingWrite) : (s.withStorage b w).x = s.x := rfl
@[simp] theorem State.withStorage_xHeld (b : Content) (w : List PendingWrite) : (s.withStorage b w).xHeld = s.xHeld := rfl
@[simp] theorem State.withStorage_pc (b : Content) (w : List PendingWrite) : (s.withStorage b w).pc = s.pc := rfl
@[simp] theorem State.withStorage_base (b : Content) (w : List PendingWrite) : (s.withStorage b w).base = b := rfl
@[simp] theorem State.withStorage_pending (b : Content) (w : List PendingWrite) : (s.withStorage b w).pending = w := rfl
@[simp] theorem State.withStorage_cpacrEl1 (b : Content) (w : List PendingWrite) : (s.withStorage b w).cpacrEl1 = s.cpacrEl1 := rfl
@[simp] theorem State.withStorage_nvmem (b : Content) (w : List PendingWrite) : (s.withStorage b w).nvmem = s.nvmem := rfl
@[simp] theorem State.withStorage_text (b : Content) (w : List PendingWrite) : (s.withStorage b w).text = s.text := rfl
@[simp] theorem State.withStorage_draws (b : Content) (w : List PendingWrite) : (s.withStorage b w).draws = s.draws := rfl

@[simp] theorem State.withCpacrEl1_params (v : Word) : (s.withCpacrEl1 v).params = s.params := rfl
@[simp] theorem State.withCpacrEl1_policy (v : Word) : (s.withCpacrEl1 v).policy = s.policy := rfl
@[simp] theorem State.withCpacrEl1_env (v : Word) : (s.withCpacrEl1 v).env = s.env := rfl
@[simp] theorem State.withCpacrEl1_x (v : Word) : (s.withCpacrEl1 v).x = s.x := rfl
@[simp] theorem State.withCpacrEl1_xHeld (v : Word) : (s.withCpacrEl1 v).xHeld = s.xHeld := rfl
@[simp] theorem State.withCpacrEl1_pc (v : Word) : (s.withCpacrEl1 v).pc = s.pc := rfl
@[simp] theorem State.withCpacrEl1_base (v : Word) : (s.withCpacrEl1 v).base = s.base := rfl
@[simp] theorem State.withCpacrEl1_pending (v : Word) : (s.withCpacrEl1 v).pending = s.pending := rfl
@[simp] theorem State.withCpacrEl1_cpacrEl1 (v : Word) : (s.withCpacrEl1 v).cpacrEl1 = v := rfl
@[simp] theorem State.withCpacrEl1_nvmem (v : Word) : (s.withCpacrEl1 v).nvmem = s.nvmem := rfl
@[simp] theorem State.withCpacrEl1_text (v : Word) : (s.withCpacrEl1 v).text = s.text := rfl
@[simp] theorem State.withCpacrEl1_draws (v : Word) : (s.withCpacrEl1 v).draws = s.draws := rfl

@[simp] theorem State.withNvmem_params (m : Memory Word) : (s.withNvmem m).params = s.params := rfl
@[simp] theorem State.withNvmem_policy (m : Memory Word) : (s.withNvmem m).policy = s.policy := rfl
@[simp] theorem State.withNvmem_env (m : Memory Word) : (s.withNvmem m).env = s.env := rfl
@[simp] theorem State.withNvmem_x (m : Memory Word) : (s.withNvmem m).x = s.x := rfl
@[simp] theorem State.withNvmem_xHeld (m : Memory Word) : (s.withNvmem m).xHeld = s.xHeld := rfl
@[simp] theorem State.withNvmem_pc (m : Memory Word) : (s.withNvmem m).pc = s.pc := rfl
@[simp] theorem State.withNvmem_base (m : Memory Word) : (s.withNvmem m).base = s.base := rfl
@[simp] theorem State.withNvmem_pending (m : Memory Word) : (s.withNvmem m).pending = s.pending := rfl
@[simp] theorem State.withNvmem_cpacrEl1 (m : Memory Word) : (s.withNvmem m).cpacrEl1 = s.cpacrEl1 := rfl
@[simp] theorem State.withNvmem_nvmem (m : Memory Word) : (s.withNvmem m).nvmem = m := rfl
@[simp] theorem State.withNvmem_text (m : Memory Word) : (s.withNvmem m).text = s.text := rfl
@[simp] theorem State.withNvmem_draws (m : Memory Word) : (s.withNvmem m).draws = s.draws := rfl

@[simp] theorem State.withText_params (m : List Host.Cell) : (s.withText m).params = s.params := rfl
@[simp] theorem State.withText_policy (m : List Host.Cell) : (s.withText m).policy = s.policy := rfl
@[simp] theorem State.withText_env (m : List Host.Cell) : (s.withText m).env = s.env := rfl
@[simp] theorem State.withText_x (m : List Host.Cell) : (s.withText m).x = s.x := rfl
@[simp] theorem State.withText_xHeld (m : List Host.Cell) : (s.withText m).xHeld = s.xHeld := rfl
@[simp] theorem State.withText_pc (m : List Host.Cell) : (s.withText m).pc = s.pc := rfl
@[simp] theorem State.withText_base (m : List Host.Cell) : (s.withText m).base = s.base := rfl
@[simp] theorem State.withText_pending (m : List Host.Cell) : (s.withText m).pending = s.pending := rfl
@[simp] theorem State.withText_cpacrEl1 (m : List Host.Cell) : (s.withText m).cpacrEl1 = s.cpacrEl1 := rfl
@[simp] theorem State.withText_nvmem (m : List Host.Cell) : (s.withText m).nvmem = s.nvmem := rfl
@[simp] theorem State.withText_text (m : List Host.Cell) : (s.withText m).text = m := rfl
@[simp] theorem State.withText_draws (m : List Host.Cell) : (s.withText m).draws = s.draws := rfl

@[simp] theorem State.withDraws_params (d : Nat) : (s.withDraws d).params = s.params := rfl
@[simp] theorem State.withDraws_policy (d : Nat) : (s.withDraws d).policy = s.policy := rfl
@[simp] theorem State.withDraws_env (d : Nat) : (s.withDraws d).env = s.env := rfl
@[simp] theorem State.withDraws_x (d : Nat) : (s.withDraws d).x = s.x := rfl
@[simp] theorem State.withDraws_xHeld (d : Nat) : (s.withDraws d).xHeld = s.xHeld := rfl
@[simp] theorem State.withDraws_pc (d : Nat) : (s.withDraws d).pc = s.pc := rfl
@[simp] theorem State.withDraws_base (d : Nat) : (s.withDraws d).base = s.base := rfl
@[simp] theorem State.withDraws_pending (d : Nat) : (s.withDraws d).pending = s.pending := rfl
@[simp] theorem State.withDraws_cpacrEl1 (d : Nat) : (s.withDraws d).cpacrEl1 = s.cpacrEl1 := rfl
@[simp] theorem State.withDraws_nvmem (d : Nat) : (s.withDraws d).nvmem = s.nvmem := rfl
@[simp] theorem State.withDraws_text (d : Nat) : (s.withDraws d).text = s.text := rfl
@[simp] theorem State.withDraws_draws (d : Nat) : (s.withDraws d).draws = d := rfl

end Sys2Proof.Machine
end

