-- ==== Sys2Proof/Laws/Content.lean ====
section
/-!
SUPPORT. The laws of contents and masks, bit by bit: what a slice of a content reads, what a merge leaves, which bits a
mask of layout rows selects.
-/

namespace Sys2Proof.Machine

/-- Where every bit holds a value, a slice reads them. -/
theorem Content.slice?_of_full {c : Content} (h : c.full = true) (lo w : Nat) (hw : lo + w ≤ 64) :
    c.slice? lo w = some (c.bits.extractLsb' lo w) := by
  have hk : c.known = BitVec.allOnes 64 := by simpa [Content.full] using h
  have hs : c.known.extractLsb' lo w = BitVec.allOnes w := by
    rw [hk]
    apply BitVec.eq_of_getLsbD_eq
    intro i hi
    simp only [BitVec.getLsbD_extractLsb', BitVec.getLsbD_allOnes, hi]
    simp
    omega
  simp only [Content.slice?, hs, if_true]

/-- Where every bit holds a value, reading one gives it. -/
theorem Content.bit?_of_full {c : Content} (h : c.full = true) {k : Nat} (hk : k < 64) :
    c.bit? k = some (c.bits.getLsbD k) := by
  rw [Content.bit?, Content.slice?_of_full h k 1 (by omega), Option.map_some]
  congr 1
  rw [Bool.eq_iff_iff, beq_iff_eq]
  constructor
  · intro h1
    have := congrArg (BitVec.getLsbD · 0) h1
    simpa using this
  · intro h1
    apply BitVec.eq_of_getLsbD_eq
    intro i hi
    have h0 : i = 0 := by omega
    subst h0
    simpa using h1

/-- One bit of no value leaves a slice without one. -/
theorem Content.slice?_eq_none {c : Content} {lo w k : Nat} (hk : k < w) (h : c.known.getLsbD (lo + k) = false) :
    c.slice? lo w = none := by
  refine if_neg fun hs => ?_
  have := congrArg (BitVec.getLsbD · k) hs
  simp [hk, h] at this

/-- A bit of no value cannot be read. -/
theorem Content.bit?_eq_none {c : Content} {k : Nat} (h : c.known.getLsbD k = false) : c.bit? k = none := by
  rw [Content.bit?, Content.slice?_eq_none (k := 0) (by omega) (by simpa using h), Option.map_none]

/-- Two contents that agree under a mask read alike in every slice the mask covers. -/
theorem Content.slice?_congr {c c' : Content} {m : Word} (hb : c.bits &&& m = c'.bits &&& m)
    (hk : c.known &&& m = c'.known &&& m) (lo w : Nat) (hm : ∀ i, lo ≤ i → i < lo + w → m.getLsbD i = true) :
    c.slice? lo w = c'.slice? lo w := by
  have e : ∀ a b : Word, a &&& m = b &&& m → a.extractLsb' lo w = b.extractLsb' lo w := by
    intro a b hab
    apply BitVec.eq_of_getLsbD_eq
    intro i hi
    have := congrArg (BitVec.getLsbD · (lo + i)) hab
    simp only [BitVec.getLsbD_and, hm (lo + i) (by omega) (by omega), Bool.and_true] at this
    simp only [BitVec.getLsbD_extractLsb', this]
  unfold Content.slice?
  rw [e _ _ hb, e _ _ hk]

/-- A merged bit keeps its old value and holding where `keep` has a one. -/
theorem Content.merge_kept {keep v : Word} {old : Content} {k : Nat} (h : keep.getLsbD k = true) :
    (Content.merge keep v old).bits.getLsbD k = old.bits.getLsbD k ∧
      (Content.merge keep v old).known.getLsbD k = old.known.getLsbD k := by
  simp only [Content.merge, BitVec.getLsbD_or, BitVec.getLsbD_and, BitVec.getLsbD_not, h]
  simp

/-- A merged bit takes its value from `v`, and holds one, where `keep` has a zero. -/
theorem Content.merge_written {keep v : Word} {old : Content} {k : Nat} (hk : k < 64) (h : keep.getLsbD k = false) :
    (Content.merge keep v old).bits.getLsbD k = v.getLsbD k ∧ (Content.merge keep v old).known.getLsbD k = true := by
  simp only [Content.merge, BitVec.getLsbD_or, BitVec.getLsbD_and, BitVec.getLsbD_not, h]
  simp [hk]

/-- With nothing to keep, a merge is the value. -/
theorem Content.merge_none (v : Word) (old : Content) : Content.merge 0#64 v old = Content.ofWord v := by
  obtain ⟨b, n⟩ := old
  simp only [Content.merge, Content.ofWord, Content.mk.injEq]
  refine ⟨?_, ?_⟩ <;>
    (apply BitVec.eq_of_getLsbD_eq
     intro i hi
     simp only [BitVec.getLsbD_or, BitVec.getLsbD_and, BitVec.getLsbD_not, BitVec.getLsbD_zero, hi,
       BitVec.getLsbD_allOnes]
     simp)

/-- The bits of a row's mask. -/
theorem FieldRow.mask_bit (r : FieldRow) {k : Nat} (hk : k < 64) (hw : r.width ≤ 64) :
    r.mask.getLsbD k = (decide (r.lo ≤ k) && decide (k < r.lo + r.width)) := by
  unfold FieldRow.mask
  simp only [BitVec.getLsbD_shiftLeft, BitVec.getLsbD_ushiftRight, BitVec.getLsbD_allOnes]
  by_cases h1 : r.lo ≤ k <;> by_cases h2 : k < r.lo + r.width <;> simp [hk, h1, h2] <;> omega

/-- A mask of rows has a one exactly at the bits of the rows it selects. -/
theorem maskWhere_bit (sel : FieldRow → Bool) (rows : List FieldRow) {k : Nat} (hk : k < 64)
    (h : ∀ r ∈ rows, r.width ≤ 64) :
    (maskWhere sel rows).getLsbD k = true ↔ ∃ r ∈ rows, sel r = true ∧ r.lo ≤ k ∧ k < r.lo + r.width := by
  induction rows with
  | nil => simp [maskWhere]
  | cons r rs ih =>
    have ih := ih (fun r hr => h r (List.mem_cons_of_mem _ hr))
    have hr := h r (List.mem_cons_self ..)
    simp only [maskWhere]
    split
    · next hs =>
      rw [BitVec.getLsbD_or, Bool.or_eq_true, ih, FieldRow.mask_bit r hk hr]
      simp [hs]
    · next hs => rw [ih]; simp [hs]

/-- Every row of a layout lies within the 64 bits. -/
theorem layoutRows_bounds {p : Params} {l : Layout} {r : FieldRow} (h : r ∈ layoutRows p l) :
    r.width ≤ 64 ∧ r.lo + r.width ≤ 64 := by
  cases l <;> simp only [layoutRows, List.mem_cons, List.not_mem_nil, or_false] at h
  · rcases h with rfl | rfl | rfl | rfl | rfl | rfl | rfl <;> simp
  · rcases h with rfl | rfl | rfl | rfl | rfl | rfl <;> simp

/-- The bits of a field that is present are named. -/
theorem namedMask_bit {p : Params} {l : Layout} {r : FieldRow} (hr : r ∈ layoutRows p l) (hp : r.present = true)
    {k : Nat} (h1 : r.lo ≤ k) (h2 : k < r.lo + r.width) : (namedMask p l).getLsbD k = true :=
  (maskWhere_bit _ _ (by have := layoutRows_bounds hr; omega) fun _ h => (layoutRows_bounds h).1).2 ⟨r, hr, hp, h1, h2⟩

end Sys2Proof.Machine
end

