-- ==== Sys2Proof/Laws/Memory.lean ====
section
/-!
SUPPORT. The laws of canonical memories: every write keeps the form, a read sees the last write to its own address and
no write to another.
-/

namespace Sys2Proof.Machine

variable {α : Type}

/-- The tail of a canonical memory is canonical. -/
theorem Memory.wf_tail {c : Nat × α} {m : Memory α} (h : Memory.wf (c :: m) = true) : Memory.wf m = true := by
  cases m with
  | nil => rfl
  | cons d m => simp only [Memory.wf, Bool.and_eq_true] at h; exact h.2

/-- Consing a cell below a canonical memory's first address. -/
theorem Memory.wf_cons {a : Nat} {v : α} {m : Memory α} (hm : Memory.wf m = true)
    (hlt : ∀ c, m.head? = some c → a < c.1) : Memory.wf ((a, v) :: m) = true := by
  cases m with
  | nil => rfl
  | cons d m => simp only [Memory.wf, Bool.and_eq_true, decide_eq_true_eq]; exact ⟨hlt d rfl, hm⟩

/-- The first address of a canonical memory is below the next. -/
theorem Memory.head_lt {a : Nat} {v : α} {m : Memory α} (h : Memory.wf ((a, v) :: m) = true) :
    ∀ c, m.head? = some c → a < c.1 := by
  intro c hc
  cases m with
  | nil => simp at hc
  | cons d m =>
    simp only [List.head?_cons, Option.some.injEq] at hc
    simp only [Memory.wf, Bool.and_eq_true, decide_eq_true_eq] at h
    exact hc ▸ h.1

/-- The first address after a write is the one written or the old first one. -/
theorem Memory.head_write (a : Nat) (v : α) (m : Memory α) :
    ∀ c, (Memory.write a v m).head? = some c → c.1 = a ∨ m.head? = some c := by
  intro c hc
  cases m with
  | nil => left; simp only [Memory.write, List.head?_cons, Option.some.injEq] at hc; exact hc ▸ rfl
  | cons d m =>
    obtain ⟨b, w⟩ := d
    simp only [Memory.write] at hc
    split at hc
    · left; simp only [List.head?_cons, Option.some.injEq] at hc; exact hc ▸ rfl
    · split at hc
      · left; simp only [List.head?_cons, Option.some.injEq] at hc; exact hc ▸ rfl
      · right; simpa using hc

/-- A write keeps the canonical form. -/
theorem Memory.wf_write (a : Nat) (v : α) (m : Memory α) (h : Memory.wf m = true) :
    Memory.wf (Memory.write a v m) = true := by
  induction m with
  | nil => rfl
  | cons d m ih =>
    obtain ⟨b, w⟩ := d
    simp only [Memory.write]
    split
    · next hab => exact Memory.wf_cons h (by simp [hab])
    · split
      · next hab =>
        subst hab
        exact Memory.wf_cons (Memory.wf_tail h) (Memory.head_lt h)
      · next hnlt hne =>
        refine Memory.wf_cons (ih (Memory.wf_tail h)) fun c hc => ?_
        rcases Memory.head_write a v m c hc with hc' | hc'
        · omega
        · exact Memory.head_lt h c hc'

/-- Consecutive writes keep the canonical form. -/
theorem Memory.wf_writeList (a : Nat) (vs : List α) (m : Memory α) (h : Memory.wf m = true) :
    Memory.wf (Memory.writeList a vs m) = true := by
  induction vs generalizing a m with
  | nil => exact h
  | cons v vs ih => exact ih _ _ (Memory.wf_write a v m h)

/-- A read after a write to the same address gives the value written. -/
@[simp] theorem Memory.read_write_same (a : Nat) (v : α) (m : Memory α) :
    Memory.read a (Memory.write a v m) = some v := by
  induction m with
  | nil => simp [Memory.write, Memory.read]
  | cons d m ih =>
    obtain ⟨b, w⟩ := d
    simp only [Memory.write]
    split
    · simp [Memory.read]
    · split
      · simp [Memory.read]
      · next hne => simp [Memory.read, hne, ih]

/-- A write leaves every other address alone. -/
theorem Memory.read_write_other {a b : Nat} (v : α) (m : Memory α) (hne : b ≠ a) :
    Memory.read b (Memory.write a v m) = Memory.read b m := by
  induction m with
  | nil => simp [Memory.write, Memory.read, hne]
  | cons d m ih =>
    obtain ⟨c, w⟩ := d
    simp only [Memory.write]
    split
    · simp [Memory.read, hne]
    · split
      · next hac => subst hac; simp [Memory.read, hne]
      · simp only [Memory.read]; split
        · rfl
        · exact ih

/-- Consecutive writes leave every address outside them alone. -/
theorem Memory.read_writeList_other {a b : Nat} (vs : List α) (m : Memory α) (h : b < a ∨ a + vs.length ≤ b) :
    Memory.read b (Memory.writeList a vs m) = Memory.read b m := by
  induction vs generalizing a m with
  | nil => rfl
  | cons v vs ih =>
    simp only [List.length_cons] at h
    simp only [Memory.writeList]
    rw [ih _ (by omega), Memory.read_write_other _ _ (by omega)]

end Sys2Proof.Machine
end

