-- ==== Sys2Proof/Laws/Ops.lean ====
section
/-!
SUPPORT. One lemma per shared operation: everything it can do when it gives a next value.
-/

namespace Sys2Proof.Machine

/-! ## Sequencing and completion -/

/-- A sequence gives a value exactly when both parts do. -/
theorem andThen_eq_next {α β : Type} {r : Result α} {k : α → Result β} {b : β} :
    andThen r k = .next b ↔ ∃ a, r = .next a ∧ k a = .next b := by
  cases r <;> simp [andThen]

@[simp] theorem andThen_next {α β : Type} (a : α) (k : α → Result β) : andThen (.next a) k = k a := rfl
@[simp] theorem andThen_fault {α β : Type} (f : Fault) (k : α → Result β) : andThen (.fault f) k = .fault f := rfl
@[simp] theorem andThen_refused {α β : Type} (r : Refusal) (k : α → Result β) :
    andThen (.refused r) k = .refused r := rfl

/-- Raising never gives a next value. -/
@[simp] theorem raiseUndefined_ne_next {α : Type} (a : α) : (raiseUndefined : Result α) ≠ .next a := by
  simp [raiseUndefined]

@[simp] theorem systemAccessTrap_ne_next {α : Type} (el : EL) (a : α) : (systemAccessTrap el : Result α) ≠ .next a := by
  simp [systemAccessTrap]

/-- Completion advances the pc by 4 and changes nothing else (rule R57). -/
theorem complete_eq_next {s t : State} :
    complete s = .next t ↔ s.pc.toNat + 4 < 2 ^ 64 ∧ t = s.withPc (s.pc + 4#64) := by
  unfold complete
  split
  · next h => simp only [Host.Outcome.next.injEq, h, true_and]; exact eq_comm
  · next h => simp only [reduceCtorEq, h, false_and]

/-! ## Registers -/

/-- What a register read gives (rules R55, R56). -/
theorem readX_eq_next {t : Nat} {s : State} {v : Word} :
    readX t s = .next v ↔
      (∃ h : t < 31, s.xHeld.getLsbD t = true ∧ v = s.x[t]) ∨ (¬ t < 31 ∧ v = 0#64) := by
  unfold readX
  split
  · next h =>
    split
    · next hh =>
      simp only [Host.Outcome.next.injEq, hh, true_and, not_true, h, exists_true_left, false_and, or_false]
      exact eq_comm
    · next hh => simp only [reduceCtorEq, hh, h, not_true, false_and, exists_const, or_false]
  · next h =>
    simp only [Host.Outcome.next.injEq, not_false_eq_true, h, IsEmpty.exists_iff, true_and, false_or]
    exact eq_comm

/-- A register write changes no other field. -/
theorem writeX_frame (t : Nat) (v : Word) (s : State) :
    writeX t v s = s.withRegs (writeX t v s).x (writeX t v s).xHeld := by
  unfold writeX
  split <;> simp [State.withRegs]

@[simp] theorem writeX_params (t : Nat) (v : Word) (s : State) : (writeX t v s).params = s.params := by rw [writeX_frame]; rfl
@[simp] theorem writeX_policy (t : Nat) (v : Word) (s : State) : (writeX t v s).policy = s.policy := by rw [writeX_frame]; rfl
@[simp] theorem writeX_env (t : Nat) (v : Word) (s : State) : (writeX t v s).env = s.env := by rw [writeX_frame]; rfl
@[simp] theorem writeX_pc (t : Nat) (v : Word) (s : State) : (writeX t v s).pc = s.pc := by rw [writeX_frame]; rfl
@[simp] theorem writeX_base (t : Nat) (v : Word) (s : State) : (writeX t v s).base = s.base := by rw [writeX_frame]; rfl
@[simp] theorem writeX_pending (t : Nat) (v : Word) (s : State) : (writeX t v s).pending = s.pending := by rw [writeX_frame]; rfl
@[simp] theorem writeX_cpacrEl1 (t : Nat) (v : Word) (s : State) : (writeX t v s).cpacrEl1 = s.cpacrEl1 := by rw [writeX_frame]; rfl
@[simp] theorem writeX_nvmem (t : Nat) (v : Word) (s : State) : (writeX t v s).nvmem = s.nvmem := by rw [writeX_frame]; rfl
@[simp] theorem writeX_text (t : Nat) (v : Word) (s : State) : (writeX t v s).text = s.text := by rw [writeX_frame]; rfl
@[simp] theorem writeX_draws (t : Nat) (v : Word) (s : State) : (writeX t v s).draws = s.draws := by rw [writeX_frame]; rfl

/-- A register written and read back gives the value; XZR gives zero (rule R56). -/
theorem readX_writeX_same (t : Nat) (v : Word) (s : State) :
    readX t (writeX t v s) = .next (if t < 31 then v else 0#64) := by
  unfold readX writeX
  split <;> simp_all

/-- A register write leaves every other register alone. -/
theorem readX_writeX_other {t r : Nat} (v : Word) (s : State) (h : r ≠ t) :
    readX r (writeX t v s) = readX r s := by
  by_cases ht : t < 31
  · by_cases hr : r < 31
    · have h2 : (s.xHeld ||| BitVec.twoPow 31 t).getLsbD r = s.xHeld.getLsbD r := by
        rw [BitVec.getLsbD_or, BitVec.getLsbD_twoPow]
        simp [Ne.symm h]
      have h1 : (s.x.set t v ht)[r] = s.x[r] := Vector.getElem_set_ne ht hr (Ne.symm h)
      simp only [readX, writeX, ht, hr, dif_pos, State.withRegs_x, State.withRegs_xHeld, h1, h2]
    · simp [readX, hr]
  · simp [writeX, ht]

/-! A register reads alike whatever happens to the rest of the state. -/

@[simp] theorem readX_withPc (t : Nat) (s : State) (v : Word) : readX t (s.withPc v) = readX t s := rfl
@[simp] theorem readX_withStorage (t : Nat) (s : State) (b : Content) (w : List PendingWrite) :
    readX t (s.withStorage b w) = readX t s := rfl
@[simp] theorem readX_withCpacrEl1 (t : Nat) (s : State) (v : Word) : readX t (s.withCpacrEl1 v) = readX t s := rfl
@[simp] theorem readX_withNvmem (t : Nat) (s : State) (m : Memory Word) : readX t (s.withNvmem m) = readX t s := rfl
@[simp] theorem readX_withDraws (t : Nat) (s : State) (d : Nat) : readX t (s.withDraws d) = readX t s := rfl

/-- Completing does not look at the storage pair. -/
theorem complete_withStorage (b : Content) (w : List PendingWrite) (s : State) :
    complete (s.withStorage b w) = andThen (complete s) fun s' => .next (s'.withStorage b w) := by
  by_cases h : s.pc.toNat + 4 < 2 ^ 64 <;>
    simp only [complete, State.withStorage_pc, h, if_true, if_false, andThen_next] <;> rfl

/-- Writing an X register and replacing the storage pair commute. -/
theorem writeX_withStorage (t : Nat) (v : Word) (b : Content) (w : List PendingWrite) (s : State) :
    writeX t v (s.withStorage b w) = (writeX t v s).withStorage b w := by
  unfold writeX; split <;> rfl

/-! ## Draws -/

/-- A draw gives one of its candidates. -/
theorem choose_mem {α : Type} (d : Nat) (c : α) (cs : List α) : choose d c cs = c ∨ choose d c cs ∈ cs := by
  cases cs with
  | nil => left; rfl
  | cons b bs =>
    have hlt : Config.freeIndex d % (bs.length + 2) < (c :: b :: bs).length := by
      simp only [List.length_cons]; exact Nat.mod_lt _ (by omega)
    have hm : (c :: b :: bs)[Config.freeIndex d % (bs.length + 2)] ∈ c :: b :: bs := List.getElem_mem hlt
    simp only [choose, List.getElem?_eq_getElem hlt, Option.getD_some]
    exact List.mem_cons.1 hm

/-- With no other candidate there is no choice. -/
@[simp] theorem choose_nil {α : Type} (d : Nat) (c : α) : choose d c [] = c := rfl

/-- What every candidate meets, the draw meets. -/
theorem choose_of_all {α : Type} {P : α → Prop} (d : Nat) {c : α} {cs : List α} (hc : P c) (hcs : ∀ b ∈ cs, P b) :
    P (choose d c cs) := by
  rcases choose_mem d c cs with h | h
  · rw [h]; exact hc
  · exact hcs _ h

/-! ## The storage -/

/-- The last write by a name is one of the writes. -/
theorem lastNamed_mem {n : AccessorName} {w : List PendingWrite} {c : Content} (h : lastNamed n w = some c) :
    ∃ e ∈ w, e.name = n ∧ e.value = c := by
  induction w with
  | nil => simp [lastNamed] at h
  | cons e w ih =>
    simp only [lastNamed, Option.or_eq_some_iff] at h
    rcases h with h | ⟨_, h⟩
    · obtain ⟨e', he', h'⟩ := ih h
      exact ⟨e', List.mem_cons_of_mem _ he', h'⟩
    · split at h
      · next hn => exact ⟨e, List.mem_cons_self .., hn, Option.some.inj h⟩
      · simp at h

/-- The contents written by the other name are contents of writes by the other name. -/
theorem mem_otherNamed {n : AccessorName} {w : List PendingWrite} {c : Content} (h : c ∈ otherNamed n w) :
    ∃ e ∈ w, e.name ≠ n ∧ e.value = c := by
  induction w with
  | nil => simp [otherNamed] at h
  | cons e w ih =>
    simp only [otherNamed] at h
    split at h
    · obtain ⟨e', he', h'⟩ := ih h
      exact ⟨e', List.mem_cons_of_mem _ he', h'⟩
    · next hn =>
      rcases List.mem_cons.1 h with h | h
      · exact ⟨e, List.mem_cons_self .., hn, h.symm⟩
      · obtain ⟨e', he', h'⟩ := ih h
        exact ⟨e', List.mem_cons_of_mem _ he', h'⟩

/-- Appending a write by a name makes it the last of that name. -/
theorem lastNamed_append_same (n : AccessorName) (w : List PendingWrite) (c : Content) :
    lastNamed n (w ++ [⟨n, c⟩]) = some c := by
  induction w with
  | nil => simp [lastNamed]
  | cons e w ih => simp [lastNamed, ih]

/-- Appending a write by a name adds nothing to the writes by the other one. -/
theorem otherNamed_append_same (n : AccessorName) (w : List PendingWrite) (c : Content) :
    otherNamed n (w ++ [⟨n, c⟩]) = otherNamed n w := by
  induction w with
  | nil => simp [otherNamed]
  | cons e w ih => simp only [List.cons_append, otherNamed, ih]

/-- What holds of every content of the storage holds of what a direct read gives. -/
theorem directRead_of_every {P : Content → Prop} {s : State} (n : AccessorName)
    (hb : P s.base) (hw : ∀ e ∈ s.pending, P e.value) : P (directRead n s).1 := by
  refine choose_of_all _ ?_ ?_
  · unfold ownContent
    cases h : lastNamed n s.pending with
    | none => exact hb
    | some c => obtain ⟨e, he, _, rfl⟩ := lastNamed_mem h; exact hw e he
  · intro c hc
    obtain ⟨e, he, _, rfl⟩ := mem_otherNamed hc
    exact hw e he

/-- What holds of every content of the storage holds of what an indirect read gives. -/
theorem indirectRead_of_every {P : Content → Prop} {s : State}
    (hb : P s.base) (hw : ∀ e ∈ s.pending, P e.value) : P (indirectRead s).1 := by
  refine choose_of_all _ hb ?_
  intro c hc
  obtain ⟨e, he, rfl⟩ := List.mem_map.1 hc
  exact hw e he

/-- After a synchronisation an indirect read gives `base` (rule R70). -/
@[simp] theorem indirectRead_synchronised {s : State} (h : s.pending = []) : (indirectRead s).1 = s.base := by
  simp [indirectRead, h]

@[simp] theorem directRead_state (n : AccessorName) (s : State) : (directRead n s).2 = s.withDraws (s.draws + 1) := rfl
@[simp] theorem indirectRead_state (s : State) : (indirectRead s).2 = s.withDraws (s.draws + 1) := rfl

/-- With no write pending, a synchronisation changes nothing. -/
theorem synchronize_of_no_pending {s : State} (h : s.pending = []) : synchronize s = s := by
  simp [synchronize, h, lastNamed]

/-- A write pending has some last write by one of the names. -/
theorem lastNamed_some_of_pending {w : List PendingWrite} (h : w ≠ []) :
    (lastNamed .cptrEl2 w).isSome = true ∨ (lastNamed .cpacrEl1 w).isSome = true := by
  cases w with
  | nil => exact absurd rfl h
  | cons e w =>
    obtain ⟨n, c⟩ := e
    cases n
    · left; simp [lastNamed]
    · right; simp [lastNamed]

/-- With a write pending, a synchronisation leaves the last write of one of the names as `base`, and no write pending
(rule R68). -/
theorem synchronize_of_pending {s : State} (h : s.pending ≠ []) :
    ∃ c n, lastNamed n s.pending = some c ∧ synchronize s = (s.withStorage c []).withDraws (s.draws + 1) := by
  have hp := lastNamed_some_of_pending h
  unfold synchronize
  split
  · next h1 h2 => simp [h1, h2] at hp
  · next c h1 _ => exact ⟨c, _, h1, rfl⟩
  · next c _ h2 => exact ⟨c, _, h2, rfl⟩
  · next c c' h1 h2 =>
    rcases choose_mem s.draws c [c'] with hc | hc
    · exact ⟨_, _, h1, by rw [hc]⟩
    · rw [List.mem_singleton] at hc
      exact ⟨_, _, h2, by rw [hc]⟩

/-- A synchronisation leaves no write pending. -/
@[simp] theorem synchronize_pending (s : State) : (synchronize s).pending = [] := by
  by_cases h : s.pending = []
  · rw [synchronize_of_no_pending h, h]
  · obtain ⟨c, n, _, hs⟩ := synchronize_of_pending h
    rw [hs]; rfl

/-- A synchronisation touches the storage pair and the model's draw counter only. -/
theorem synchronize_frame (s : State) :
    synchronize s = (s.withStorage (synchronize s).base []).withDraws (synchronize s).draws := by
  by_cases h : s.pending = []
  · rw [synchronize_of_no_pending h]; simp [State.withStorage, State.withDraws, ← h]
  · obtain ⟨c, n, _, hs⟩ := synchronize_of_pending h
    rw [hs]; rfl

@[simp] theorem synchronize_params (s : State) : (synchronize s).params = s.params := by rw [synchronize_frame]; rfl
@[simp] theorem synchronize_policy (s : State) : (synchronize s).policy = s.policy := by rw [synchronize_frame]; rfl
@[simp] theorem synchronize_env (s : State) : (synchronize s).env = s.env := by rw [synchronize_frame]; rfl
@[simp] theorem synchronize_x (s : State) : (synchronize s).x = s.x := by rw [synchronize_frame]; rfl
@[simp] theorem synchronize_xHeld (s : State) : (synchronize s).xHeld = s.xHeld := by rw [synchronize_frame]; rfl
@[simp] theorem synchronize_pc (s : State) : (synchronize s).pc = s.pc := by rw [synchronize_frame]; rfl
@[simp] theorem synchronize_cpacrEl1 (s : State) : (synchronize s).cpacrEl1 = s.cpacrEl1 := by rw [synchronize_frame]; rfl
@[simp] theorem synchronize_nvmem (s : State) : (synchronize s).nvmem = s.nvmem := by rw [synchronize_frame]; rfl
@[simp] theorem synchronize_text (s : State) : (synchronize s).text = s.text := by rw [synchronize_frame]; rfl

/-- What a read of the storage gives (rules R30, R33). -/
theorem readCptr_eq_next {n : AccessorName} {s s' : State} {v : Word} :
    readCptr n s = .next (v, s') ↔
      (res0FromEL3 s = true ∧ v = 0#64 ∧ s' = s) ∨
      (res0FromEL3 s = false ∧ (directRead n s).1.full = true ∧ v = (directRead n s).1.bits ∧
        s' = s.withDraws (s.draws + 1)) := by
  unfold readCptr
  split
  · next h =>
    simp only [Host.Outcome.next.injEq, Prod.mk.injEq, h, true_and, Bool.true_eq_false, false_and, or_false]
    exact and_congr eq_comm eq_comm
  · next h =>
    rw [Bool.not_eq_true] at h
    split
    · next hf =>
      simp only [Host.Outcome.next.injEq, Prod.mk.injEq, h, hf, true_and, Bool.false_eq_true, false_and, false_or]
      exact and_congr eq_comm eq_comm
    · next hf => simp [h, hf]

/-- What a write to the storage does (rules R31, R32, R33, R37). -/
theorem writeCptr_eq_next {n : AccessorName} {v : Word} {s s' : State} :
    writeCptr n v s = .next s' ↔
      (res0FromEL3 s = true ∧ s' = s) ∨
      (res0FromEL3 s = false ∧ (maskingApplies s && !s.env.e2h) = false ∧
        resViolation s.params (layoutOf s.env.e2h) v = false ∧ s' = directWrite n v s) := by
  unfold writeCptr
  split
  · next h =>
    simp only [Host.Outcome.next.injEq, h, true_and, Bool.true_eq_false, false_and, or_false]
    exact eq_comm
  · next h =>
    rw [Bool.not_eq_true] at h
    split
    · next hm => simp only [reduceCtorEq, h, hm, Bool.false_eq_true, Bool.true_eq_false, false_and, and_false, or_false]
    · next hm =>
      rw [Bool.not_eq_true] at hm
      split
      · next hr => simp [h, hr]
      · next hr =>
        rw [Bool.not_eq_true] at hr
        simp only [Host.Outcome.next.injEq, h, hm, hr, true_and, Bool.false_eq_true, false_and, false_or]
        exact eq_comm

/-- A direct write appends one entry (rule R68). -/
theorem directWrite_eq (n : AccessorName) (v : Word) (s : State) :
    directWrite n v s =
      (s.withDraws (s.draws + 1)).withStorage s.base
        (s.pending ++ [⟨n, Content.merge (readOnlyMask s) v (directRead n s).1⟩]) := rfl

/-! ## NVMem -/

/-- What a read of an NVMem cell does (rule R64). -/
theorem nvRead_eq (off : Nat) (s : State) :
    (∃ v, Memory.read off s.nvmem = some v ∧ nvRead off s = (v, s)) ∨
      (Memory.read off s.nvmem = none ∧ nvRead off s = (Config.freeWord s.draws, s.withDraws (s.draws + 1))) := by
  unfold nvRead
  cases h : Memory.read off s.nvmem with
  | none => right; simp
  | some v => left; exact ⟨v, rfl, rfl⟩

/-! ## The permission tests -/

/-- EL3's first test lets an access through only where it does not apply (rule R106). -/
theorem el3Priority_eq_next {α : Type} {s : State} {k : Result α} {a : α} :
    el3Priority s k = .next a ↔
      (s.params.haveEL3 && s.env.el3SDDUndefPriority && s.env.cptrEl3Tcpac) = false ∧ k = .next a := by
  unfold el3Priority
  split <;> simp_all

/-- EL3's second test lets an access through only where EL3 does not forbid it (rule R106). -/
theorem el3Trap_eq_next {α : Type} {s : State} {k : Result α} {a : α} :
    el3Trap s k = .next a ↔ (s.params.haveEL3 && s.env.cptrEl3Tcpac) = false ∧ k = .next a := by
  unfold el3Trap
  split
  · split <;> simp_all
  · simp_all

/-- The TCPAC test lets an access through where EL2 is not enabled or bit 31 is read as zero (rules R102, R103). -/
theorem tcpacGate_eq_next {s s' : State} :
    tcpacGate s = .next s' ↔
      (s.env.el2Enabled = false ∧ s' = s) ∨
      (s.env.el2Enabled = true ∧ (indirectRead s).1.bit? 31 = some false ∧ s' = s.withDraws (s.draws + 1)) := by
  unfold tcpacGate
  split
  · next h =>
    split
    · next hb => simp [h, hb]
    · next hb => simp [h, hb]
    · next hb =>
      simp only [Host.Outcome.next.injEq, h, hb, true_and, Bool.true_eq_false, false_and, false_or, indirectRead_state]
      exact eq_comm
  · next h =>
    rw [Bool.not_eq_true] at h
    simp only [Host.Outcome.next.injEq, h, true_and, Bool.false_eq_true, false_and, or_false]
    exact eq_comm

/-- The fine-grained trap lets an access through only where it does not apply (rule R188). -/
theorem fgtGate_eq_next {α : Type} {bit : Bool} {s : State} {k : Result α} {a : α} :
    fgtGate bit s k = .next a ↔
      (s.env.el2Enabled && s.params.featFGT && (!s.params.haveEL3 || s.env.scrEl3FGTEn) && bit) = false ∧
        k = .next a := by
  unfold fgtGate
  split
  · next h => simp only [h, Bool.true_eq_false, false_and, systemAccessTrap_ne_next]
  · next h => rw [Bool.not_eq_true] at h; simp only [h, true_and]

/-- Where an access by the name CPTR_EL2 goes when no test stops it (rules R100, R101, R105). -/
theorem routeCptrEl2_eq_next {s s' : State} {tgt : Target} (h : routeCptrEl2 s = .next (tgt, s')) :
    tgt = .cptr .cptrEl2 ∧ s' = s ∧ s.params.featAA64 = true ∧ (s.env.el = .el2 ∨ s.env.el = .el3) := by
  unfold routeCptrEl2 at h
  split at h
  · simp at h
  · next hf =>
    split at h
    · simp at h
    · split at h <;> simp at h
    · next he =>
      obtain ⟨_, h⟩ := el3Priority_eq_next.1 h
      obtain ⟨_, h⟩ := el3Trap_eq_next.1 h
      simp_all
    · next he => simp_all

/-- Where an access by the name CPACR_EL1 goes when no test stops it (rules R102, R103, R105): from EL1 never to the
CPTR_EL2 storage, and at most one draw is made. -/
theorem routeCpacrEl1_eq_next {b : Bool} {s s' : State} {tgt : Target} (h : routeCpacrEl1 b s = .next (tgt, s')) :
    s.params.featVHE = true ∧ s.params.featAA64 = true ∧ (∃ d, s' = s.withDraws d) ∧
      ((s.env.el = .el1 ∧ ((s.env.nvx = 0b111#3 ∧ tgt = .nvmem) ∨ (s.env.nvx ≠ 0b111#3 ∧ tgt = .cpacrEl1))) ∨
       (s.env.el = .el2 ∧ s' = s ∧
          ((s.env.inHostEL2 = true ∧ tgt = .cptr .cpacrEl1) ∨ (s.env.inHostEL2 = false ∧ tgt = .cpacrEl1))) ∨
       (s.env.el = .el3 ∧ s' = s ∧ tgt = .cpacrEl1)) := by
  unfold routeCpacrEl1 at h
  split at h
  · simp at h
  · next hv =>
    split at h
    · simp at h
    · next hf =>
      refine ⟨by simpa using hv, by simpa using hf, ?_⟩
      split at h
      · simp at h
      · next he =>
        obtain ⟨_, h⟩ := el3Priority_eq_next.1 h
        obtain ⟨s1, h1, h⟩ := andThen_eq_next.1 h
        obtain ⟨_, h⟩ := fgtGate_eq_next.1 h
        obtain ⟨_, h⟩ := el3Trap_eq_next.1 h
        have hs1 : (∃ d, s1 = s.withDraws d) ∧ s1.env = s.env := by
          rcases tcpacGate_eq_next.1 h1 with ⟨_, rfl⟩ | ⟨_, _, rfl⟩
          · exact ⟨⟨s1.draws, rfl⟩, rfl⟩
          · exact ⟨⟨_, rfl⟩, rfl⟩
        simp only [Host.Outcome.next.injEq, Prod.mk.injEq] at h
        obtain ⟨ht, rfl⟩ := h
        refine ⟨hs1.1, Or.inl ⟨he, ?_⟩⟩
        rw [hs1.2] at ht
        split at ht
        · next hn => exact Or.inl ⟨hn, ht.symm⟩
        · next hn => exact Or.inr ⟨hn, ht.symm⟩
      · next he =>
        obtain ⟨_, h⟩ := el3Priority_eq_next.1 h
        obtain ⟨_, h⟩ := el3Trap_eq_next.1 h
        simp only [Host.Outcome.next.injEq, Prod.mk.injEq] at h
        obtain ⟨ht, rfl⟩ := h
        refine ⟨⟨s.draws, rfl⟩, Or.inr (Or.inl ⟨he, rfl, ?_⟩)⟩
        split at ht
        · next hn => exact Or.inl ⟨hn, ht.symm⟩
        · next hn => exact Or.inr ⟨by simpa using hn, ht.symm⟩
      · next he =>
        simp only [Host.Outcome.next.injEq, Prod.mk.injEq] at h
        obtain ⟨ht, rfl⟩ := h
        exact ⟨⟨s.draws, rfl⟩, Or.inr (Or.inr ⟨he, rfl, ht.symm⟩)⟩

/-- What follows an access that EL3's first test looks at, follows where the test lets it through. -/
theorem andThen_el3Priority {α β : Type} (s : State) (r : Result α) (k : α → Result β) :
    andThen (el3Priority s r) k = el3Priority s (andThen r k) := by
  unfold el3Priority; split <;> rfl

/-- What follows an access that EL3's second test looks at, follows where the test lets it through. -/
theorem andThen_el3Trap {α β : Type} (s : State) (r : Result α) (k : α → Result β) :
    andThen (el3Trap s r) k = el3Trap s (andThen r k) := by
  unfold el3Trap
  split
  · split <;> rfl
  · rfl

@[simp] theorem el3Priority_withStorage {α : Type} (s : State) (b : Content) (w : List PendingWrite) (k : Result α) :
    el3Priority (s.withStorage b w) k = el3Priority s k := rfl
@[simp] theorem el3Trap_withStorage {α : Type} (s : State) (b : Content) (w : List PendingWrite) (k : Result α) :
    el3Trap (s.withStorage b w) k = el3Trap s k := rfl

/-- Without EL2 enabled the TCPAC test lets every access through (rules R102, R103). -/
theorem tcpacGate_of_el2_off {s : State} (h : s.env.el2Enabled = false) : tcpacGate s = .next s := by
  simp [tcpacGate, h]

/-- Without EL2 enabled the fine-grained trap lets every access through (rule R188). -/
theorem fgtGate_of_el2_off {α : Type} {s : State} (h : s.env.el2Enabled = false) (bit : Bool) (k : Result α) :
    fgtGate bit s k = k := by
  simp [fgtGate, h]

/-- Where EL2 is not enabled, the arms of the CPACR_EL1 accessors at EL1 do not look at the storage pair (rule R6). -/
theorem routeCpacrEl1_withStorage {s : State} (h : s.env.el2Enabled = false) (he : s.env.el = .el1) (fgtBit : Bool)
    (b : Content) (w : List PendingWrite) :
    routeCpacrEl1 fgtBit (s.withStorage b w) =
      andThen (routeCpacrEl1 fgtBit s) fun r => .next (r.1, r.2.withStorage b w) := by
  have h' : (s.withStorage b w).env.el2Enabled = false := h
  by_cases hv : (!s.params.featVHE) = true
  · simp only [routeCpacrEl1, State.withStorage_params, hv, if_true]; rfl
  by_cases ha : (!s.params.featAA64) = true
  · simp only [routeCpacrEl1, State.withStorage_params, hv, ha, if_true]; rfl
  simp only [routeCpacrEl1, State.withStorage_params, State.withStorage_env, hv, ha, he, if_false, Bool.false_eq_true,
    tcpacGate_of_el2_off h, tcpacGate_of_el2_off h', andThen_next, fgtGate_of_el2_off h, fgtGate_of_el2_off h',
    andThen_el3Priority, andThen_el3Trap, el3Priority_withStorage, el3Trap_withStorage]
  rfl

/-! ## The two directions and the step -/

/-- Everything an MRS does when it completes. -/
theorem mrsFrom_eq_next {t : Nat} {r : Result (Target × State)} {s' : State} :
    mrsFrom t r = .next s' ↔
      ∃ tgt s0 v s1, r = .next (tgt, s0) ∧ readTarget tgt s0 = .next (v, s1) ∧ complete (writeX t v s1) = .next s' := by
  simp only [mrsFrom, andThen_eq_next, Prod.exists]
  constructor
  · rintro ⟨tgt, s0, h, v, s1, hr, hc⟩
    exact ⟨tgt, s0, v, s1, h, hr, hc⟩
  · rintro ⟨tgt, s0, v, s1, h, hr, hc⟩
    exact ⟨tgt, s0, h, v, s1, hr, hc⟩

/-- Everything an MSR does when it completes. -/
theorem msrTo_eq_next {t : Nat} {r : Result (Target × State)} {s' : State} :
    msrTo t r = .next s' ↔
      ∃ tgt s0 v s1, r = .next (tgt, s0) ∧ readX t s0 = .next v ∧ writeTarget tgt v s0 = .next s1 ∧
        complete s1 = .next s' := by
  simp only [msrTo, andThen_eq_next, Prod.exists]
  constructor
  · rintro ⟨tgt, s0, h, v, hv, s1, hw, hc⟩
    exact ⟨tgt, s0, v, s1, h, hv, hw, hc⟩
  · rintro ⟨tgt, s0, v, s1, h, hv, hw, hc⟩
    exact ⟨tgt, s0, h, v, hv, s1, hw, hc⟩

/-- A read of a target changes at most the model's draw counter. -/
theorem readTarget_state {tgt : Target} {s s' : State} {v : Word} (h : readTarget tgt s = .next (v, s')) :
    ∃ d, s' = s.withDraws d := by
  cases tgt with
  | cptr n =>
    rcases readCptr_eq_next.1 h with ⟨_, _, rfl⟩ | ⟨_, _, _, rfl⟩
    · exact ⟨s'.draws, rfl⟩
    · exact ⟨_, rfl⟩
  | cpacrEl1 =>
    simp only [readTarget, Host.Outcome.next.injEq, Prod.mk.injEq] at h
    exact ⟨s.draws, h.2.symm⟩
  | nvmem =>
    simp only [readTarget, Host.Outcome.next.injEq] at h
    rcases nvRead_eq 0x100 s with ⟨w, _, hr⟩ | ⟨_, hr⟩
    · rw [hr] at h; exact ⟨s.draws, (Prod.mk.inj h).2.symm⟩
    · rw [hr] at h; exact ⟨_, (Prod.mk.inj h).2.symm⟩

/-- A write of a target changes the storage's pending writes, CPACR_EL1 or NVMem, and the model's draw counter. -/
theorem writeTarget_frame {tgt : Target} {v : Word} {s s' : State} (h : writeTarget tgt v s = .next s') :
    s' = (((s.withStorage s.base s'.pending).withCpacrEl1 s'.cpacrEl1).withNvmem s'.nvmem).withDraws s'.draws := by
  cases tgt with
  | cptr n =>
    rcases writeCptr_eq_next.1 h with ⟨_, rfl⟩ | ⟨_, _, _, rfl⟩
    · rfl
    · rfl
  | cpacrEl1 => simp only [writeTarget, Host.Outcome.next.injEq] at h; subst h; rfl
  | nvmem => simp only [writeTarget, Host.Outcome.next.injEq] at h; subst h; rfl

/-- A step that gives a next state fetched an instruction and is its meaning. -/
theorem step_eq_next {s s' : State} :
    step s = .next s' ↔ ∃ i, fetchInstr s = .next i ∧ exec i s = .next s' := by
  simp only [step, andThen_eq_next]

end Sys2Proof.Machine
end

