-- ==== Sys2Proof/Laws/Check.lean ====
section
/-!
SUPPORT. The laws of the trap check: what one class test gives, what a list of tests answers, and the whole of what a
check can do.
-/

namespace Sys2Proof.Machine

/-- A test on a bit that holds a value. -/
theorem whenClass_some (a b : Bool) : whenClass a (some b) = some (a && b) := by cases a <;> rfl

/-- A class test holds exactly where the class does and the field says so. -/
theorem whenClass_eq_some_true {a : Bool} {t : Option Bool} :
    whenClass a t = some true ↔ a = true ∧ t = some true := by
  cases a <;> simp [whenClass]

/-- A test whose class does not hold does not look at the field. -/
theorem whenClass_congr {a : Bool} {t t' : Option Bool} (h : a = true → t = t') : whenClass a t = whenClass a t' := by
  cases a with
  | false => rfl
  | true => rw [h rfl]

/-- What a list of tests answers is `noTrap` or the answer of a test that holds. -/
theorem firstTrap_eq_some {l : List (Option Bool × Verdict)} {v : Verdict} (h : firstTrap l = some v) :
    v = .noTrap ∨ ∃ p ∈ l, p.1 = some true ∧ p.2 = v := by
  induction l with
  | nil => simp [firstTrap] at h; exact .inl h.symm
  | cons p l ih =>
    obtain ⟨t, w⟩ := p
    cases t with
    | none => simp [firstTrap] at h
    | some b =>
      cases b with
      | true => simp [firstTrap] at h; exact .inr ⟨_, List.mem_cons_self .., rfl, h⟩
      | false =>
        simp only [firstTrap] at h
        rcases ih h with h | ⟨p, hp, h⟩
        · exact .inl h
        · exact .inr ⟨p, List.mem_cons_of_mem _ hp, h⟩

/-- A list of tests answers nothing only where one of them needs a bit of no value. -/
theorem firstTrap_eq_none {l : List (Option Bool × Verdict)} (h : firstTrap l = none) : ∃ p ∈ l, p.1 = none := by
  induction l with
  | nil => simp [firstTrap] at h
  | cons p l ih =>
    obtain ⟨t, w⟩ := p
    cases t with
    | none => exact ⟨_, List.mem_cons_self .., rfl⟩
    | some b =>
      cases b with
      | true => simp [firstTrap] at h
      | false =>
        simp only [firstTrap] at h
        obtain ⟨p, hp, h⟩ := ih h
        exact ⟨p, List.mem_cons_of_mem _ hp, h⟩

/-- Everything a check that answers can do (rules R120, R143, R167): no trap where EL2 is not enabled or at EL3, the two
kinds of UNDEFINED of higher priority, or the answer of the tests on what `IndirectRead` gives. -/
theorem cptrEl2Check_eq_next {i : ClassInputs} {el : EL} {st : ExecState} {s s' : State} {v : Verdict}
    (h : cptrEl2Check i el st s = .next (v, s')) :
    (v = .noTrap ∧ s' = s ∧ (s.env.el2Enabled = false ∨ el = .el3)) ∨
    (v = .higherPriorityUndefined ∧ s' = s ∧ el = .el0) ∨
    (s.env.el2Enabled = true ∧ el ≠ .el3 ∧ s' = s.withDraws (s.draws + 2) ∧
      firstTrap (testsOf s (indirectRead s).1 (settleMvfr s i st) el st) = some v) := by
  unfold cptrEl2Check at h
  split at h
  · next hc =>
    simp only [Host.Outcome.next.injEq, Prod.mk.injEq] at h
    refine .inl ⟨h.1.symm, h.2.symm, ?_⟩
    simpa using hc
  · next hc =>
    have hc' : s.env.el2Enabled = true ∧ el ≠ .el3 := by simpa using hc
    split at h
    · next hu =>
      simp only [Host.Outcome.next.injEq, Prod.mk.injEq] at h
      simp only [undefinedTrace, Bool.and_eq_true, decide_eq_true_eq] at hu
      exact .inr (.inl ⟨h.1.symm, h.2.symm, hu.1.2⟩)
    · split at h
      · next hu =>
        simp only [Host.Outcome.next.injEq, Prod.mk.injEq] at h
        simp only [undefinedFpId, Bool.and_eq_true, decide_eq_true_eq] at hu
        exact .inr (.inl ⟨h.1.symm, h.2.symm, hu.2⟩)
      · split at h
        · simp at h
        · split at h
          · simp at h
          · next w hw =>
            simp only [Host.Outcome.next.injEq, Prod.mk.injEq] at h
            obtain ⟨rfl, hs⟩ := h
            exact .inr (.inr ⟨hc'.1, hc'.2, hs.symm, hw⟩)

end Sys2Proof.Machine
end

