-- ==== Sys2Proof/Laws/PerInstr.lean ====
section
/-!
SUPPORT. Statements made once per constructor of Instr. `EncodingRow`: the word of an instruction, under the mask that
the encoding diagram of its row in `spec/opcode_table.json` gives, is the match of that row.
-/

namespace Sys2Proof.Laws

/-- The fixed bits of the row of an instruction (`spec/opcode_table.json`, `mask`). -/
def rowMask : Instr → BitVec 32
  | .mrsCptrEl2 _ => 0xFFFFFFE0#32
  | .msrCptrEl2 _ => 0xFFFFFFE0#32
  | .mrsCpacrEl1 _ => 0xFFFFFFE0#32
  | .msrCpacrEl1 _ => 0xFFFFFFE0#32
  | .sync => 0xFFFFFFFF#32

/-- The values of those bits (`spec/opcode_table.json`, `match`). -/
def rowMatch : Instr → BitVec 32
  | .mrsCptrEl2 _ => 0xD53C1140#32
  | .msrCptrEl2 _ => 0xD51C1140#32
  | .mrsCpacrEl1 _ => 0xD5381040#32
  | .msrCpacrEl1 _ => 0xD5181040#32
  | .sync => 0xD5033FDF#32

/-- The word of the instruction has the fixed bits of its row. -/
def EncodingRow.Statement (i : Instr) : Prop := encodeWord i &&& rowMask i = rowMatch i

theorem EncodingRow.mrsCptrEl2 (t : Nat) : EncodingRow.Statement (.mrsCptrEl2 t) := by
  have h : ∀ k : Fin 32, Accessor.toWord ⟨true, 0b11#2, 0b100#3, 0b0001#4, 0b0001#4, 0b010#3, BitVec.ofFin k⟩ &&&
      0xFFFFFFE0#32 = 0xD53C1140#32 := by decide
  exact h (BitVec.ofNat 5 t).toFin

theorem EncodingRow.msrCptrEl2 (t : Nat) : EncodingRow.Statement (.msrCptrEl2 t) := by
  have h : ∀ k : Fin 32, Accessor.toWord ⟨false, 0b11#2, 0b100#3, 0b0001#4, 0b0001#4, 0b010#3, BitVec.ofFin k⟩ &&&
      0xFFFFFFE0#32 = 0xD51C1140#32 := by decide
  exact h (BitVec.ofNat 5 t).toFin

theorem EncodingRow.mrsCpacrEl1 (t : Nat) : EncodingRow.Statement (.mrsCpacrEl1 t) := by
  have h : ∀ k : Fin 32, Accessor.toWord ⟨true, 0b11#2, 0b000#3, 0b0001#4, 0b0000#4, 0b010#3, BitVec.ofFin k⟩ &&&
      0xFFFFFFE0#32 = 0xD5381040#32 := by decide
  exact h (BitVec.ofNat 5 t).toFin

theorem EncodingRow.msrCpacrEl1 (t : Nat) : EncodingRow.Statement (.msrCpacrEl1 t) := by
  have h : ∀ k : Fin 32, Accessor.toWord ⟨false, 0b11#2, 0b000#3, 0b0001#4, 0b0000#4, 0b010#3, BitVec.ofFin k⟩ &&&
      0xFFFFFFE0#32 = 0xD5181040#32 := by decide
  exact h (BitVec.ofNat 5 t).toFin

theorem EncodingRow.sync : EncodingRow.Statement .sync := rfl

end Sys2Proof.Laws
end

