-- ==== Sys2Proof/Tests/Slice0.lean ====
section
/-!
SUPPORT. Tests: what well-formedness refuses, words decoded bit by bit, one-step vectors of `spec/95_test_vectors.md`,
checks of traps from its section 4, and for each statement with hypotheses a concrete state that meets them.
-/

namespace Sys2Proof.Machine

/-! ## Helpers -/

/-- The default state of the vectors: K0 at EL2 with E2H = 1, CPTR = 0x00300000, CPACR_EL1 = 0xAAAA, NVMem[0x100] =
0xBBBB, and the same value in X0 to X30. -/
def k0 (x : Word) : State :=
  { State.reset with
    env := Env.k0, base := Content.ofWord 0x00300000#64, x := Vector.replicate 31 x, cpacrEl1 := 0xAAAA#64
    nvmem := [(0x100, 0xBBBB#64)] }

def State.atEl (s : State) (el : EL) : State := { s with env := { s.env with el := el } }
def State.inEnv (s : State) (f : Env → Env) : State := { s with env := f s.env }
def State.ofParams (s : State) (f : Params → Params) : State := { s with params := f s.params }
def State.holding (s : State) (c : Word) : State := { s with base := Content.ofWord c }
def State.layoutB (s : State) : State := { s with env := { s.env with e2h := false }, base := Content.ofWord 0x22FF#64 }
def State.inHost (s : State) : State := { s with env := { s.env with inHostEL2 := true } }
def State.el3Armed (s : State) : State :=
  { s with params := { s.params with haveEL3 := true }, env := { s.env with cptrEl3Tcpac := true } }
def State.unheld (s : State) : State := { s with xHeld := 0#31 }
/-- The register without a value in bit `k`. -/
def State.forgetting (s : State) (k : Nat) : State :=
  { s with base := ⟨s.base.bits &&& ~~~(1#64 <<< k), s.base.known &&& ~~~(1#64 <<< k)⟩ }
def State.masked (s : State) : State :=
  { s with
    params := { s.params with featSRMASK := true }
    env := { s.env with srMaskEnabledEL2 := true, cptrMask := { s.env.cptrMask with fpen := true } } }

end Sys2Proof.Machine

namespace Sys2Proof.Tests

open Sys2Proof Sys2Proof.Machine

/-- A view of the state an operation gives, if it gives one. -/
def view {β : Type} (f : State → β) (r : Result State) : Option β :=
  match r with
  | .next s => some (f s)
  | .fault _ => none
  | .refused _ => none

/-- How an operation stops, if it does. -/
def stop {α : Type} (r : Result α) : Option (Fault ⊕ Refusal) :=
  match r with
  | .next _ => none
  | .fault f => some (.inl f)
  | .refused f => some (.inr f)

/-! ## Well-formedness: a register number above 31 is refused (rule R82) -/

theorem test_wf_mrs_cptr : (Instr.mrsCptrEl2 32).wellFormed = false ∧ (Instr.mrsCptrEl2 31).wellFormed = true := by decide
theorem test_wf_msr_cptr : (Instr.msrCptrEl2 32).wellFormed = false ∧ (Instr.msrCptrEl2 31).wellFormed = true := by decide
theorem test_wf_mrs_cpacr : (Instr.mrsCpacrEl1 32).wellFormed = false ∧ (Instr.mrsCpacrEl1 31).wellFormed = true := by decide
theorem test_wf_msr_cpacr : (Instr.msrCpacrEl1 32).wellFormed = false ∧ (Instr.msrCpacrEl1 31).wellFormed = true := by decide
theorem test_wf_sync : Instr.sync.wellFormed = true := by decide

/-! ## Decoding: each word is written bit by bit from rules R81 and R84 to R87 (and `95_test_vectors.md` section 2.3) -/

/-- 1101010100 L o0 op1 CRn CRm op2 Rt with L = 1 (R84), Rt = 1. -/
theorem test_decode_mrs_cptr :
    decodeWord 0b1101010100_1_1_1_100_0001_0001_010_00001#32 = .ok (.mrsCptrEl2 1) := by rfl
/-- L = 0 (R85), Rt = 31. -/
theorem test_decode_msr_cptr :
    decodeWord 0b1101010100_0_1_1_100_0001_0001_010_11111#32 = .ok (.msrCptrEl2 31) := by rfl
/-- L = 1, op1 = 000, CRm = 0000 (R86), Rt = 5. -/
theorem test_decode_mrs_cpacr :
    decodeWord 0b1101010100_1_1_1_000_0001_0000_010_00101#32 = .ok (.mrsCpacrEl1 5) := by rfl
/-- L = 0, op1 = 000, CRm = 0000 (R87), Rt = 2. -/
theorem test_decode_msr_cpacr :
    decodeWord 0b1101010100_0_1_1_000_0001_0000_010_00010#32 = .ok (.msrCpacrEl1 2) := by rfl
/-- ISB, one realisation of `SYNC` (R69). -/
theorem test_decode_sync : decodeWord 0b11010101000000110011111111011111#32 = .ok .sync := by rfl
/-- The word lies in memory least significant byte first (R81). -/
theorem test_decode_bytes : decode [0x41#8, 0x11#8, 0x3C#8, 0xD5#8, 0x7#8] = .ok (.mrsCptrEl2 1, [0x7#8]) := by rfl
/-- op2 = 011 is another register (R90); a zero word is no System accessor; three bytes are too few. -/
theorem test_decode_rejects :
    decodeWord 0xD53C1160#32 = .error .registerNotInScope ∧ decodeWord 0#32 = .error .notASystemAccessor ∧
    decode [0x40#8, 0x11#8, 0x3C#8] = .error .tooShort := ⟨rfl, rfl, rfl⟩
/-- The rows of `spec/opcode_table.json` with the register number zero. -/
theorem test_decode_table :
    decodeTableWord 32 0xD53C1140 = some (.mrsCptrEl2 0) ∧ decodeTableWord 32 0xD51C1140 = some (.msrCptrEl2 0) ∧
    decodeTableWord 32 0xD5381040 = some (.mrsCpacrEl1 0) ∧ decodeTableWord 32 0xD5181040 = some (.msrCpacrEl1 0) ∧
    decodeTableWord 32 0xD5033FDF = some .sync := by decide

/-! ## One step -/

/-- Each row of the table runs as the first instruction after reset. -/
theorem test_step_from_reset :
    ∀ w ∈ [0xD53C1140, 0xD51C1140, 0xD5381040, 0xD5181040, 0xD5033FDF],
      view (fun s => s.pc) (step (State.reset.withFetchWord 32 w)) = some 4#64 := by decide

/-- With no program placed the first step finds the end of the program (decision D22). -/
theorem test_step_no_program : stop (step State.reset) = some (.inl .endOfProgram) := by decide

/-- A8: at EL2 the read gives the register. -/
theorem test_mrs_cptr_reads :
    view (fun s => (readX 1 s, s.pc)) (exec (.mrsCptrEl2 1) (k0 0#64)) = some (.next 0x00300000#64, 4#64) := by rfl
/-- A6: NVx = 110 has a zero in bit 0. -/
theorem test_mrs_cptr_nvx : stop (exec (.mrsCptrEl2 1) (((k0 0#64).atEl .el1).inEnv fun e => { e with nvx := 0b110#3 })) =
    some (.inl .undefined) := by decide
/-- W14: FPEN is kept, TCPAC is written. -/
theorem test_msr_cptr_masked :
    view (fun s => s.pending) (exec (.msrCptrEl2 1) (k0 0x80000000#64).masked) =
      some [⟨.cptrEl2, Content.ofWord 0x80300000#64⟩] := by rfl
/-- W9: without FEAT_SME bit 12 of layout B is RES1. -/
theorem test_msr_cptr_res1 :
    stop (exec (.msrCptrEl2 1) ((k0 0x22FF#64).layoutB.ofParams fun p => { p with featSME := false })) =
      some (.inr .resViolation) := by decide
/-- B22: in the host the name CPACR_EL1 reads CPTR_EL2. -/
theorem test_mrs_cpacr_host :
    view (fun s => readX 1 s) (exec (.mrsCpacrEl1 1) (k0 0#64).inHost) = some (.next 0x00300000#64) := by rfl
/-- B12: the read is trapped by the bit of HFGRTR_EL2, not of HFGWTR_EL2. -/
theorem test_mrs_cpacr_fgt :
    stop (exec (.mrsCpacrEl1 1) (((k0 0#64).atEl .el1).inEnv fun e => { e with hfgrtrCpacrEl1 := true })) =
      some (.inl (.trap .el2 0x18 none)) := by decide
/-- B5: with NVx = 111 the write goes to memory. -/
theorem test_msr_cpacr_nvmem :
    view (fun s => (s.nvmem, s.cpacrEl1))
      (exec (.msrCpacrEl1 1) (((k0 0xCC#64).atEl .el1).inEnv fun e => { e with nvx := 0b111#3 })) =
      some ([(0x100, 0xCC#64)], 0xAAAA#64) := by rfl
/-- W17: the mask follows the Exception level, not the name. -/
theorem test_msr_cpacr_masked :
    view (fun s => s.pending) (exec (.msrCpacrEl1 1) (k0 0x80000000#64).masked.inHost) =
      some [⟨.cpacrEl1, Content.ofWord 0x80300000#64⟩] := by rfl
/-- Program 1, step 2. -/
theorem test_sync_publishes :
    view (fun s => (s.base, s.pending))
      (exec .sync { k0 0#64 with pending := [⟨.cptrEl2, Content.ofWord 0x33FF#64⟩] }) =
      some (Content.ofWord 0x33FF#64, []) := by rfl
/-- O5: of two writes by one name the later is published. -/
theorem test_sync_last :
    view (fun s => s.base)
      (exec .sync { k0 0#64 with
        pending := [⟨.cptrEl2, Content.ofWord 0x00330000#64⟩, ⟨.cptrEl2, Content.ofWord 0x03300000#64⟩] }) =
      some (Content.ofWord 0x03300000#64) := by rfl

/-! ## The trap check (`95_test_vectors.md` section 4) and the ISS (section 2.3) -/

/-- T9, T10: SMEN is tested before FPEN. -/
theorem test_check_sme :
    verdict? (cptrEl2Check { smeInstr := true } .el1 .aarch64 ((k0 0#64).holding 0#64)) =
      some (.trap .el2 0x1D (some 0)) ∧
    verdict? (cptrEl2Check { smeInstr := true } .el1 .aarch64 ((k0 0#64).holding 0x03000000#64)) =
      some (.trap .el2 0x07 none) := by decide
/-- T15: in Streaming SVE mode an SVE instruction is of the SME class. -/
theorem test_check_streaming :
    verdict? (cptrEl2Check { sveInstr := true } .el1 .aarch64
      (((k0 0#64).holding 0x03200000#64).inEnv fun e => { e with streamingSVE := true })) =
      some (.trap .el2 0x07 none) := by decide
/-- T5, T6: FPEN = 01 with TGE = 1 traps EL0 only. -/
theorem test_check_fpen01 :
    verdict? (cptrEl2Check { fpReg := true } .el0 .aarch64
      (((k0 0#64).holding 0x00100000#64).inEnv fun e => { e with tge := true })) = some (.trap .el2 0x07 none) ∧
    verdict? (cptrEl2Check { fpReg := true } .el2 .aarch64
      (((k0 0#64).holding 0x00100000#64).inEnv fun e => { e with tge := true })) = some .noTrap := by decide
/-- T34, S15: the clause of TGE is that of layout A only. -/
theorem test_check_trace :
    verdict? (cptrEl2Check { trace := true, trappedByCpacrTrace := true } .el2 .aarch64
      (((k0 0#64).holding 0x10300000#64).inEnv fun e => { e with tge := true })) = some (.trap .el2 0x18 none) ∧
    verdict? (cptrEl2Check { trace := true, trappedByCpacrTrace := true } .el2 .aarch64
      (((k0 0#64).layoutB.holding 0x001022FF#64).inEnv fun e => { e with tge := true })) = some .noTrap := by decide
/-- S10, S11: without FEAT_SME and FEAT_SVE bits 12 and 8 are no controls. -/
theorem test_check_absent :
    verdict? (cptrEl2Check { sveInstr := true } .el1 .aarch64
      (((k0 0#64).layoutB.holding 0x33FF#64).ofParams fun p => { p with featSME := false, featSVE := false })) =
      some .noTrap ∧
    verdict? (cptrEl2Check { sveInstr := true } .el1 .aarch64
      (((k0 0#64).layoutB.holding 0x37FF#64).ofParams fun p => { p with featSME := false, featSVE := false })) =
      some (.trap .el2 0x07 none) := by decide
/-- T28, T30: E0POE is an enable. -/
theorem test_check_e0poe :
    verdict? (cptrEl2Check { porEl0 := true } .el0 .aarch64 ((k0 0#64).inEnv fun e => { e with tge := true })) =
      some (.trap .el2 0x18 none) ∧
    verdict? (cptrEl2Check { porEl0 := true } .el0 .aarch64
      (((k0 0#64).holding 0x20300000#64).inEnv fun e => { e with tge := true })) = some .noTrap := by decide
/-- T40: a field of no value. -/
theorem test_check_unknown :
    stop (cptrEl2Check { fpReg := true } .el1 .aarch64 { k0 0#64 with base := Content.noValue }) =
      some (.inl .unknownValue) := by decide
/-- The ISS values of section 2.3, by the layout of rule R174. -/
theorem test_iss :
    issOf (.mrsCpacrEl1 5) = some 0x3404A1#25 ∧ issOf (.mrsCpacrEl1 0) = some 0x340401#25 ∧
    issOf (.msrCptrEl2 0) = some 0x350402#25 ∧ issOf (.mrsCptrEl2 2) = some 0x350443#25 ∧ issOf .sync = none := by decide
/-- The byte view of NVMem in both byte orders (rule R66, decision D10). -/
theorem test_nvmem_bytes :
    nvCellBytes Policy.k0 0x100 0x0102030405060708#64 =
      [(0x100, 8#8), (0x101, 7#8), (0x102, 6#8), (0x103, 5#8), (0x104, 4#8), (0x105, 3#8), (0x106, 2#8), (0x107, 1#8)] ∧
    (nvCellBytes { Policy.k0 with nvmemBigEndian := true, nvmemBase := 0x1000#64 } 0x100 1#64).getLast? =
      some (0x1107, 1#8) := by decide

/-! ## Witnesses: for each statement with hypotheses, a state and operands that meet them, clause by clause -/

theorem wit_DecodeOfEncode : (Instr.mrsCptrEl2 0).WellFormed ∧ (Instr.msrCpacrEl1 31).WellFormed ∧ Instr.sync.WellFormed := by
  decide
theorem wit_DecodedWordIsTheEncoding : decodeWord 0xD51C115F#32 = .ok (.msrCptrEl2 31) := by rfl

theorem wit_OtherWordsAreNotInScope :
    Launchable { State.reset with text := [(0, 0#8), (1, 0#8), (2, 0#8), (3, 0#8)] } ∧
    fetchBytes 0 [(0, 0#8), (1, 0#8), (2, 0#8), (3, 0#8)] = some [0#8, 0#8, 0#8, 0#8] ∧
    ∀ i : Instr, i.WellFormed → encode i ≠ [0#8, 0#8, 0#8, 0#8] := by
  refine ⟨by decide, by decide, fun i h => ?_⟩
  have h1 : ∀ k : Fin 32, encode (.mrsCptrEl2 k) ≠ [0#8, 0#8, 0#8, 0#8] ∧ encode (.msrCptrEl2 k) ≠ [0#8, 0#8, 0#8, 0#8] ∧
      encode (.mrsCpacrEl1 k) ≠ [0#8, 0#8, 0#8, 0#8] ∧ encode (.msrCpacrEl1 k) ≠ [0#8, 0#8, 0#8, 0#8] := by decide
  cases i with
  | mrsCptrEl2 t => exact (h1 ⟨t, by have := of_decide_eq_true h; omega⟩).1
  | msrCptrEl2 t => exact (h1 ⟨t, by have := of_decide_eq_true h; omega⟩).2.1
  | mrsCpacrEl1 t => exact (h1 ⟨t, by have := of_decide_eq_true h; omega⟩).2.2.1
  | msrCpacrEl1 t => exact (h1 ⟨t, by have := of_decide_eq_true h; omega⟩).2.2.2
  | sync => decide

theorem wit_StepRunsDecodedInstruction :
    Launchable (State.reset.withFetchWord 32 0xD53C1141) ∧
    fetchBytes 0 (State.reset.withFetchWord 32 0xD53C1141).text = some [0x41#8, 0x11#8, 0x3C#8, 0xD5#8] ∧
    decode [0x41#8, 0x11#8, 0x3C#8, 0xD5#8] = .ok (.mrsCptrEl2 1, []) := ⟨by decide, by decide, rfl⟩

theorem wit_StepStopsBeforeFetch :
    unreachable (((k0 0#64).atEl .el1).inEnv fun e => { e with tge := true }) = true ∧
    unreachable { k0 0#64 with pc := 2#64 } = false ∧ ¬ PcAligned { k0 0#64 with pc := 2#64 } ∧
    PcAligned (k0 0#64) ∧ fetchBytes (k0 0#64).pc.toNat (k0 0#64).text = none := by decide

theorem wit_PlacedWordIsFetched : 0xFFFFFFFF < 2 ^ 32 := by decide

theorem wit_PcNeverWraps :
    ¬ PcHasRoom { k0 0#64 with pc := 0xFFFFFFFFFFFFFFFC#64 } ∧ PcHasRoom { k0 0#64 with pc := 0xFFFFFFFFFFFFFFF8#64 } := by
  decide

theorem wit_UndefinedWithoutAA64AndAtEL0 :
    ((k0 0#64).ofParams fun p => { p with featAA64 := false }).params.featAA64 = false ∧
    ((k0 0#64).atEl .el0).env.el = .el0 ∧ (k0 0#64).params.featVHE = true := by decide

theorem wit_GuestUseOfCptrNameIsCaught :
    stop (exec (.msrCptrEl2 1) (((k0 0#64).atEl .el1).inEnv fun e => { e with nvx := 0b001#3 })) =
      some (.inl (.trap .el2 0x18 none)) ∧
    ((k0 0#64).atEl .el1).params.featAA64 = true ∧ ((k0 0#64).atEl .el1).env.el = .el1 := by decide

theorem wit_CpacrNameNeedsVHE :
    stop (exec (.mrsCpacrEl1 1) ((k0 0#64).ofParams fun p => { p with featVHE := false })) =
      some (.inr .notInSource) := by decide

/-- The clauses: at EL2, and there without FEAT_VHE too; at EL1 with the priority; at EL1 behind TCPAC; at EL1 behind an
implemented fine-grained trap that does not apply, for want of its bit (K0) and for want of SCR_EL3.FGTEn. -/
theorem wit_EL3ControlStopsAccessors :
    EL3Forbids (k0 0#64).el3Armed ∧ (k0 0#64).el3Armed.env.el = .el2 ∧
    EL3Forbids ((k0 0#64).el3Armed.ofParams fun p => { p with featVHE := false }) ∧
    (((k0 0#64).el3Armed.atEl .el1).inEnv fun e => { e with el3SDDUndefPriority := true }).env.el3SDDUndefPriority = true ∧
    EveryContent (fun c => c.bit? 31 = some true) (((k0 0#64).el3Armed.atEl .el1).holding 0x80300000#64) ∧
    (k0 0#64).params.featFGT = true ∧ NoEL2TrapOfCpacr false ((k0 0#64).el3Armed.atEl .el1) ∧
    NoEL2TrapOfCpacr true (((k0 0#64).el3Armed.atEl .el1).inEnv fun e => { e with scrEl3FGTEn := false }) ∧
    ¬ NoEL2TrapOfCpacr true (((k0 0#64).el3Armed.atEl .el1).inEnv fun e => { e with scrEl3FGTEn := true }) := by decide

theorem wit_TcpacCatchesGuestAccess :
    EveryContent (fun c => c.bit? 31 = some true) (((k0 0#64).atEl .el1).holding 0x80300000#64) ∧
    EveryContent (fun c => c.bit? 31 = none) { (k0 0#64).atEl .el1 with base := Content.noValue } ∧
    ¬ EL3Forbids (((k0 0#64).atEl .el1).inEnv fun e => { e with el2Enabled := false }) ∧ PcHasRoom (k0 0#64) ∧
    (k0 0#64).env.nvx ≠ 0b111#3 ∧ (k0 0#64).params.featVHE = true ∧ (k0 0#64).params.featAA64 = true ∧
    readX 1 (k0 7#64) = .next 7#64 := ⟨by decide, by decide, by decide, by decide, by decide, rfl, rfl, rfl⟩

theorem wit_FineGrainedTrapOfCpacr :
    EveryContent (fun c => c.bit? 31 = some false) ((k0 0#64).atEl .el1) ∧ (k0 0#64).params.featFGT = true ∧
    (k0 0#64).params.haveEL3 = false ∧ (k0 0#64).env.el2Enabled = true ∧
    stop (exec (.msrCpacrEl1 1) (((k0 0#64).atEl .el1).inEnv fun e => { e with hfgwtrCpacrEl1 := true })) =
      some (.inl (.trap .el2 0x18 none)) := by decide

theorem wit_WhoReachesTheStorage :
    ReachesStorage .cptrEl2 (k0 0#64) ∧ ReachesStorage .cptrEl2 ((k0 0#64).atEl .el3) ∧
    ReachesStorage .cpacrEl1 (k0 0#64).inHost ∧ ¬ ReachesStorage .cpacrEl1 ((k0 0#64).inHost.atEl .el3) ∧
    ¬ ReachesStorage .cptrEl2 ((k0 0#64).atEl .el1) := by decide

theorem wit_GuestNeverChangesTheStorage :
    ∃ s', exec (.msrCpacrEl1 1) ((k0 0#64).atEl .el1) = .next s' := ⟨_, rfl⟩

theorem wit_MrsReadsTheStorage :
    ReachesStorage .cpacrEl1 (k0 0#64).inHost ∧ res0FromEL3 (k0 0#64).inHost = false ∧
    EveryContent (fun c => c.full = true) (k0 0#64).inHost ∧ PcHasRoom (k0 0#64).inHost ∧
    ReachesStorage .cptrEl2 ((k0 0#64).atEl .el3) ∧ res0FromEL3 ((k0 0#64).atEl .el3) = false := by decide

theorem wit_MrsOfUnknownContentFaults :
    ReachesStorage .cptrEl2 { k0 0#64 with base := Content.noValue } ∧
    EveryContent (fun c => c.full = false) { k0 0#64 with base := Content.noValue } ∧
    res0FromEL3 { k0 0#64 with base := Content.noValue } = false := by decide

/-- W18. -/
theorem wit_Res0FromEL3WithoutEL2 :
    view (fun s => readX 1 s)
      (exec (.mrsCptrEl2 1) (((k0 9#64).atEl .el3).ofParams fun p => { p with haveEL2 := false, haveEL3 := true })) =
      some (.next 0#64) := by rfl

theorem wit_CpacrNameAboveTheHost :
    ReachesCpacrAbove (k0 0#64) ∧ ReachesCpacrAbove ((k0 0#64).inHost.atEl .el3) ∧ PcHasRoom (k0 0#64) ∧
    readX 31 (k0 7#64) = .next 0#64 := ⟨by decide, by decide, by decide, rfl⟩

theorem wit_GuestReadOfCpacr :
    GuestMayReach false ((k0 0#64).atEl .el1) ∧ ((k0 0#64).atEl .el1).env.nvx ≠ 0b111#3 ∧
    GuestMayReach false (((k0 0#64).atEl .el1).inEnv fun e => { e with nvx := 0b111#3 }) ∧
    Memory.read 0x100 (k0 0#64).nvmem = some 0xBBBB#64 := by decide

theorem wit_GuestWriteOfCpacr :
    GuestMayReach false ((k0 0#64).atEl .el1) ∧ PcHasRoom ((k0 0#64).atEl .el1) ∧
    readX 1 ((k0 7#64).atEl .el1) = .next 7#64 := ⟨by decide, by decide, rfl⟩

theorem wit_MsrAppendsAPendingWrite :
    ReachesStorage .cptrEl2 (k0 0x80000000#64).masked ∧ WriteAdmitted 0x80000000#64 (k0 0x80000000#64).masked ∧
    ReachesStorage .cpacrEl1 (k0 0#64).inHost ∧ WriteAdmitted 0#64 (k0 0#64).inHost := by decide

/-- The second part of the same statement: bits 20 and 21 (FPEN) are read-only under the mask, their neighbours and bit 31
(TCPAC) are not. -/
theorem wit_MsrAppendsAPendingWrite_bits :
    (ReadOnlyBit (k0 0#64).masked 20 ∧ ReadOnlyBit (k0 0#64).masked 21) ∧
    (¬ ReadOnlyBit (k0 0#64).masked 19 ∧ ¬ ReadOnlyBit (k0 0#64).masked 22 ∧ ¬ ReadOnlyBit (k0 0#64).masked 31) := by
  decide

/-- W3 and W7: bit 32 of layout A is RES0, bit 7 of layout B is RES1. -/
theorem wit_ReservedBitWriteIsRefused :
    (res0Mask Params.k0 (layoutOf true)).getLsbD 32 = true ∧ (0x100000000#64).getLsbD 32 = true ∧
    (res1Mask Params.k0 (layoutOf false)).getLsbD 7 = true ∧ (0#64).getLsbD 7 = false ∧
    ReachesStorage .cptrEl2 (k0 0#64).layoutB ∧ res0FromEL3 (k0 0#64).layoutB = false ∧
    (maskingApplies (k0 0#64).layoutB && !(k0 0#64).layoutB.env.e2h) = false := by decide

/-- W16. -/
theorem wit_MaskedWriteInLayoutBIsRefused :
    ReachesStorage .cptrEl2 (k0 0x22FF#64).layoutB.masked ∧ (k0 0x22FF#64).layoutB.masked.env.el = .el2 ∧
    (k0 0x22FF#64).layoutB.masked.params.featSRMASK = true ∧
    (k0 0x22FF#64).layoutB.masked.env.srMaskEnabledEL2 = true ∧ (k0 0x22FF#64).layoutB.masked.env.e2h = false ∧
    EveryContent (fun c => c.full = true) (k0 0x22FF#64).layoutB.masked := by decide

theorem wit_MsrOfUnwrittenRegisterFaults :
    stop (exec (.msrCptrEl2 30) (k0 0#64).unheld) = some (.inl .unwrittenRegister) ∧
    stop (exec (.msrCpacrEl1 0) ((k0 0#64).unheld.atEl .el1)) = some (.inl .unwrittenRegister) ∧
    ReachesStorage .cptrEl2 (k0 0#64).unheld ∧ ReachesCpacrAbove (k0 0#64).unheld ∧
    GuestMayReach false ((k0 0#64).unheld.atEl .el1) := by decide

theorem wit_HcptrIsTheLowHalf : (k0 0#64).base.full = true ∧ (k0 0#64).base.hcptr = some 0x00300000#32 := by decide

theorem wit_NvmemReadAfterWrite :
    (0x108 : Nat) ≠ 0x100 ∧ Memory.read 0x108 (nvWrite 0x100 5#64 (k0 0#64)).nvmem = none := by decide

theorem wit_SyncPublishesALastWrite :
    PcHasRoom (k0 0#64) ∧ (k0 0#64).pending = [] ∧
    lastNamed .cpacrEl1 [⟨.cpacrEl1, Content.ofWord 1#64⟩, ⟨.cptrEl2, Content.ofWord 2#64⟩] = some (Content.ofWord 1#64) := by
  decide

theorem wit_SameNameReadSeesTheWrite :
    ReachesStorage .cptrEl2 (k0 0x00330000#64) ∧ WriteAdmitted 0x00330000#64 (k0 0x00330000#64) ∧
    (k0 0#64).params.featSRMASK = false ∧ (k0 0#64).pc.toNat + 8 < 2 ^ 64 ∧
    (∀ e ∈ (k0 0#64).pending, e.name = .cptrEl2) ∧ readX 0 (k0 0x00330000#64) = .next 0x00330000#64 :=
  ⟨by decide, by decide, by decide, by decide, by decide, rfl⟩

theorem wit_CrossNameReadSeesOldOrNew :
    ReachesStorage .cptrEl2 (k0 0x00330000#64).inHost ∧ ReachesStorage .cpacrEl1 (k0 0x00330000#64).inHost ∧
    WriteAdmitted 0x00330000#64 (k0 0x00330000#64).inHost ∧ Settled (k0 0x00330000#64).inHost ∧
    (k0 0#64).inHost.params.featSRMASK = false := by decide

theorem wit_SynchronisedReadSeesTheWrite :
    ReachesStorage .cptrEl2 (k0 0x00330000#64).inHost ∧ ReachesStorage .cpacrEl1 (k0 0x00330000#64).inHost ∧
    WriteAdmitted 0x00330000#64 (k0 0x00330000#64).inHost ∧ (k0 0#64).pc.toNat + 12 < 2 ^ 64 ∧
    (∀ e ∈ (k0 0#64).inHost.pending, e.name = .cpacrEl1) := by decide

theorem wit_MrsFrame : ∃ s', exec (mrsBy .cpacrEl1 1) ((k0 0#64).atEl .el1) = .next s' := ⟨_, rfl⟩

/-- The three places an MSR may write. -/
theorem wit_MsrFrame :
    (∃ s', exec (msrBy .cptrEl2 1) (k0 0#64) = .next s') ∧ (∃ s', exec (msrBy .cpacrEl1 1) (k0 0#64) = .next s') ∧
    (∃ s', exec (msrBy .cpacrEl1 1) (((k0 0#64).atEl .el1).inEnv fun e => { e with nvx := 0b111#3 }) = .next s') :=
  ⟨⟨_, rfl⟩, ⟨_, rfl⟩, ⟨_, rfl⟩⟩

/-- A step that writes the register, from a state that meets every invariant: the premises of StepKeepsSurroundings,
StepKeepsCanonicalForms, StepKeepsReservedBits, StepKeepsEveryRegisterHeld and NoStepEndsForWantOfAValue. -/
theorem wit_StepKeepsInvariants :
    Canonical ((k0 0#64).withFetchWord 32 0xD51C1140) ∧ PcAligned ((k0 0#64).withFetchWord 32 0xD51C1140) ∧
    ReservedAtShouldBe ((k0 0#64).withFetchWord 32 0xD51C1140) ∧
    EveryRegisterHeld ((k0 0#64).withFetchWord 32 0xD51C1140) ∧
    (view (fun s => s.pending.length) (step ((k0 0#64).withFetchWord 32 0xD51C1140))) = some 1 := by decide

theorem wit_WarmResetLeavesTheRegisterUnknown :
    { k0 0#64 with policy := { Policy.k0 with unknown := .fault } }.policy.unknown = .fault ∧
    (k0 0#64).policy.unknown = .draw ∧
    (warmReset { k0 0#64 with policy := { Policy.k0 with unknown := .fault } }).base.known.getLsbD 63 = false := by decide

/-- With EL2 off, the content that would trap a guest with EL2 on. -/
theorem wit_NoEffectWithoutEL2 :
    (((k0 0#64).atEl .el1).inEnv fun e => { e with el2Enabled := false }).env.el2Enabled = false ∧
    (((k0 0#64).atEl .el1).inEnv fun e => { e with el2Enabled := false }).env.el = .el1 ∧
    view (fun s => s.pc) (exec (.mrsCpacrEl1 1)
      ((((k0 0#64).atEl .el1).holding 0x80300000#64).inEnv fun e => { e with el2Enabled := false })) = some 4#64 := by decide

/-- A verdict of each kind. -/
theorem wit_CheckTargetsEL2AndChangesNothing :
    verdict? (cptrEl2Check { cpacr := true } .el1 .aarch32 ((k0 0#64).holding 0x80300000#64)) =
      some (.trap .el2 0x03 none) ∧
    verdict? (cptrEl2Check { cpacr := true } .el3 .aarch32 ((k0 0#64).holding 0x80300000#64)) = some .noTrap ∧
    verdict? (cptrEl2Check { trace := true } .el0 .aarch64 (k0 0#64)) = some .higherPriorityUndefined := by decide

theorem wit_TwoBitEnableDecode :
    (((k0 0#64).atEl .el1).inEnv fun e => { e with tge := true }).env.tge = true ∧
    (((k0 0#64).atEl .el1).inEnv fun e => { e with tge := true }).env.el2Enabled = true := by decide

/-- The premises of EnablesOfLayoutA, TrapBitsOfLayoutB, TcpacField, TamField, E0poeField and TtaField: a settled register
in layout A, and in layout B. -/
theorem wit_FieldsOfASettledRegister :
    Settled (k0 0#64) ∧ (k0 0#64).env.el2Enabled = true ∧ (k0 0#64).env.e2h = true ∧ Settled (k0 0#64).layoutB ∧
    (k0 0#64).layoutB.env.el2Enabled = true ∧ (k0 0#64).layoutB.env.e2h = false := by decide

/-- A reading of the two-bit values as EnablesOfLayoutA asks, at EL0 with TGE zero. -/
theorem wit_EnablesOfLayoutA :
    enTraps false 0b00#2 .el0 = true ∧ enTraps false 0b10#2 .el0 = true ∧ enTraps false 0b11#2 .el0 = false ∧
    enTraps false 0b01#2 .el0 = (false && decide (EL.el0 = .el0)) := by decide

/-- In layout B with every trap bit one and in layout A with every enable zero, at EL0, and at EL1 in AArch32 state; and a
control of each layout that does not trap. -/
theorem wit_NamedAccessesAreTrapped :
    Settled (((k0 0#64).layoutB.holding 0x37FF#64).atEl .el0) ∧
    unreachable (((k0 0#64).layoutB.holding 0x37FF#64).atEl .el0) = false ∧
    ((((k0 0#64).layoutB.holding 0x37FF#64).atEl .el1).inEnv fun e => { e with aarch := .aarch32 }).env.aarch = .aarch32 ∧
    fpControlTraps ((k0 0#64).layoutB.holding 0x37FF#64) = true ∧ smeControlTraps ((k0 0#64).layoutB.holding 0x37FF#64) = true ∧
    sveControlTraps ((k0 0#64).layoutB.holding 0x37FF#64) = true ∧ fpControlTraps (k0 0#64).layoutB = false ∧
    Settled (((k0 0#64).holding 0#64).atEl .el0) ∧ unreachable (((k0 0#64).holding 0#64).atEl .el1) = false ∧
    fpControlTraps ((k0 0#64).holding 0#64) = true ∧ smeControlTraps ((k0 0#64).holding 0#64) = true ∧
    sveControlTraps ((k0 0#64).holding 0#64) = true ∧ fpControlTraps (k0 0#64) = false ∧
    (k0 0#64).params.featSME = true ∧ (k0 0#64).params.featSVE = true ∧ (k0 0#64).params.featFPMR = true := by decide

theorem wit_ActivityMonitorRegisters :
    Settled (((k0 0#64).holding 0x40300000#64).atEl .el0) ∧
    unreachable (((k0 0#64).holding 0x40300000#64).atEl .el1) = false ∧ (k0 0#64).params.featAMUv1 = true ∧
    (((k0 0#64).holding 0x40300000#64).atEl .el1).base.bits.getLsbD 30 = true := by decide

/-- T28, T29 and T30: the trap with TGE 1, either answer with TGE 0, and none where the field is one. -/
theorem wit_E0poeField :
    (k0 0#64).params.featS1POE = true ∧ (k0 0#64).base.bits.getLsbD 29 = false ∧ (k0 0#64).env.tge = false ∧
    ((k0 0#64).inEnv fun e => { e with tge := true }).env.tge = true ∧
    ((k0 0#64).holding 0x20300000#64).base.bits.getLsbD 29 = true := by decide

/-- Each clause at the edge of the region: CRn = 7 is inside, CRn = 8 outside. -/
theorem wit_TraceRegionIsNecessary :
    unreachable (k0 0#64) = false ∧ inTraceRegion64 2#2 1#3 7#4 = true ∧ inTraceRegion64 2#2 1#3 8#4 = false ∧
    inTraceRegion32 14#4 1#3 7#4 = true ∧ inTraceRegion32 14#4 1#3 8#4 = false ∧ inTraceRegion32 15#4 1#3 0#4 = false := by
  decide

/-- In layout B with TFP one, in layout A with FPEN zero, at each Exception level below EL3. -/
theorem wit_FpIdRegisterAccesses :
    unreachable (((k0 0#64).layoutB.holding 0x26FF#64).inEnv fun e => { e with aarch := .aarch32 }) = false ∧
    Settled (((k0 0#64).layoutB.holding 0x26FF#64).inEnv fun e => { e with aarch := .aarch32 }) ∧
    fpControlTraps ((k0 0#64).layoutB.holding 0x26FF#64) = true ∧ (k0 0#64).policy.mvfrWrite = .refuse ∧
    Settled (((k0 0#64).holding 0x03030000#64).inEnv fun e => { e with aarch := .aarch32 }) ∧
    fpControlTraps ((k0 0#64).holding 0x03030000#64) = true ∧ fpControlTraps (k0 0#64) = false ∧
    unreachable ((k0 0#64).atEl .el0) = false ∧ unreachable ((k0 0#64).atEl .el1) = false := by decide

/-- For each class its field with one bit of no value, the upper or the lower of a two-bit field, in layout A and B. -/
theorem wit_CheckOfUnknownFieldFaults :
    FieldUnknown 24 2 ((k0 0#64).forgetting 25) ∧ FieldUnknown 24 2 ((k0 0#64).forgetting 24) ∧
    FieldUnknown 16 2 ((k0 0#64).forgetting 17) ∧ FieldUnknown 20 2 ((k0 0#64).forgetting 21) ∧
    ¬ FieldUnknown 20 2 ((k0 0#64).forgetting 22) ∧ ¬ FieldUnknown 20 2 ((k0 0#64).forgetting 19) ∧
    FieldUnknown 31 1 ((k0 0#64).forgetting 31) ∧ FieldUnknown 30 1 ((k0 0#64).forgetting 30) ∧
    FieldUnknown 29 1 ((k0 0#64).forgetting 29) ∧ FieldUnknown 28 1 ((k0 0#64).forgetting 28) ∧
    FieldUnknown 12 1 ((k0 0#64).layoutB.forgetting 12) ∧ FieldUnknown 8 1 ((k0 0#64).layoutB.forgetting 8) ∧
    FieldUnknown 10 1 ((k0 0#64).layoutB.forgetting 10) ∧ FieldUnknown 20 1 ((k0 0#64).layoutB.forgetting 20) ∧
    (k0 0#64).env.el2Enabled = true ∧ (k0 0#64).params.featSME = true ∧ (k0 0#64).params.featSVE = true ∧
    (k0 0#64).params.featAMUv1 = true ∧ (k0 0#64).params.featS1POE = true ∧ (k0 0#64).params.traceSysreg = true := by decide

/-- The values of K0 in both layouts, and a check that gives a verdict there. -/
theorem wit_TrapNothingValues :
    Settled ((k0 0#64).holding 0x23330000#64) ∧ Settled (k0 0#64).layoutB ∧
    verdict? (cptrEl2Check { smeInstr := true } .el1 .aarch64 ((k0 0#64).holding 0x23330000#64)) = some .noTrap ∧
    verdict? (cptrEl2Check { sveInstr := true } .el1 .aarch64 (k0 0#64).layoutB) = some .noTrap := by decide

/-- Two contents of layout A that differ in the reserved bits 0 and 63 only. -/
theorem wit_ReservedBitsTrapNothing :
    (0x00300000#64) &&& namedMask Params.k0 (layoutOf true) = 0x8000000000300001#64 &&& namedMask Params.k0 (layoutOf true) := by
  decide

end Sys2Proof.Tests
end

section
/-!
The scope of the register (`spec/00_scope.md`): HCPTR as a view of the storage, the levels at which the accessors are
UNDEFINED, and that nothing depends on the storage where EL2 is not enabled.
-/

namespace Sys2Proof.Machine

/-! ## The meaning of each accessor as a route and a direction -/

theorem exec_mrsCptrEl2 (t : Nat) (s : State) : exec (.mrsCptrEl2 t) s = mrsFrom t (routeCptrEl2 s) := rfl
theorem exec_msrCptrEl2 (t : Nat) (s : State) : exec (.msrCptrEl2 t) s = msrTo t (routeCptrEl2 s) := rfl
theorem exec_mrsCpacrEl1 (t : Nat) (s : State) :
    exec (.mrsCpacrEl1 t) s = mrsFrom t (routeCpacrEl1 s.env.hfgrtrCpacrEl1 s) := rfl
theorem exec_msrCpacrEl1 (t : Nat) (s : State) :
    exec (.msrCpacrEl1 t) s = msrTo t (routeCpacrEl1 s.env.hfgwtrCpacrEl1 s) := rfl

/-- Sequencing is associative. -/
theorem andThen_assoc {α β γ : Type} (r : Result α) (k : α → Result β) (l : β → Result γ) :
    andThen (andThen r k) l = andThen r fun a => andThen (k a) l := by
  cases r <;> rfl

/-! ## Where the accessors are UNDEFINED (rule R175 rows 1 and 2) -/

@[simp] theorem mrsFrom_raiseUndefined (t : Nat) : mrsFrom t raiseUndefined = .fault .undefined := rfl
@[simp] theorem msrTo_raiseUndefined (t : Nat) : msrTo t raiseUndefined = .fault .undefined := rfl

theorem routeCptrEl2_undefined {s : State} (h : s.params.featAA64 = false ∨ s.env.el = .el0) :
    routeCptrEl2 s = raiseUndefined := by
  rcases h with hAA64 | hEl0
  · simp [routeCptrEl2, hAA64]
  · simp [routeCptrEl2, hEl0]

theorem routeCpacrEl1_undefined {s : State} (h : s.params.featAA64 = false ∨ s.env.el = .el0)
    (hVHE : s.params.featVHE = true) (fgtBit : Bool) : routeCpacrEl1 fgtBit s = raiseUndefined := by
  rcases h with hAA64 | hEl0
  · simp [routeCpacrEl1, hVHE, hAA64]
  · simp [routeCpacrEl1, hVHE, hEl0]

/-! ## What does not look at the storage pair (rule R6) -/

/-- At EL1 an access by the name CPACR_EL1 never goes to the CPTR_EL2 storage (rule R105). -/
theorem routeCpacrEl1_target_of_el1 {fgtBit : Bool} {s s0 : State} {tgt : Target} (he : s.env.el = .el1)
    (h : routeCpacrEl1 fgtBit s = .next (tgt, s0)) (n : AccessorName) : tgt ≠ .cptr n := by
  obtain ⟨-, -, -, ⟨-, ⟨-, rfl⟩ | ⟨-, rfl⟩⟩ | ⟨hEl2, -⟩ | ⟨hEl3, -⟩⟩ := routeCpacrEl1_eq_next h
  · simp
  · simp
  · simp [he] at hEl2
  · simp [he] at hEl3

/-- A read of an NVMem cell and a replacement of the storage pair commute. -/
theorem nvRead_withStorage (off : Nat) (s : State) (c : Content) (w : List PendingWrite) :
    nvRead off (s.withStorage c w) = ((nvRead off s).1, (nvRead off s).2.withStorage c w) := by
  unfold nvRead
  rw [State.withStorage_nvmem]
  cases Memory.read off s.nvmem <;> rfl

section
variable {tgt : Target} (htgt : ∀ n, tgt ≠ .cptr n) (s : State) (c : Content) (w : List PendingWrite)
include htgt

/-- A read of any other target does not look at the storage pair. -/
theorem readTarget_withStorage :
    readTarget tgt (s.withStorage c w) = andThen (readTarget tgt s) fun r => .next (r.1, r.2.withStorage c w) := by
  cases tgt with
  | cptr n => exact absurd rfl (htgt n)
  | cpacrEl1 => rfl
  | nvmem => exact congrArg Host.Outcome.next (nvRead_withStorage 0x100 s c w)

/-- A write of any other target does not look at the storage pair. -/
theorem writeTarget_withStorage (v : Word) :
    writeTarget tgt v (s.withStorage c w) = andThen (writeTarget tgt v s) fun s1 => .next (s1.withStorage c w) := by
  cases tgt with
  | cptr n => exact absurd rfl (htgt n)
  | cpacrEl1 => rfl
  | nvmem => rfl

end

section
variable {r : Result (Target × State)} (hr : ∀ tgt s, r = .next (tgt, s) → ∀ n, tgt ≠ .cptr n)
  (t : Nat) (c : Content) (w : List PendingWrite)
include hr

/-- An MRS whose arms do not lead to the storage carries a replaced storage pair through. -/
theorem mrsFrom_withStorage :
    mrsFrom t (andThen r fun p => .next (p.1, p.2.withStorage c w)) =
      andThen (mrsFrom t r) fun s' => .next (s'.withStorage c w) := by
  cases r with
  | fault f => rfl
  | refused f => rfl
  | next p =>
    have htgt := hr p.1 p.2 rfl
    simp only [mrsFrom, andThen_next, readTarget_withStorage htgt, andThen_assoc, writeX_withStorage,
      complete_withStorage]

/-- An MSR whose arms do not lead to the storage carries a replaced storage pair through. -/
theorem msrTo_withStorage :
    msrTo t (andThen r fun p => .next (p.1, p.2.withStorage c w)) =
      andThen (msrTo t r) fun s' => .next (s'.withStorage c w) := by
  cases r with
  | fault f => rfl
  | refused f => rfl
  | next p =>
    have htgt := hr p.1 p.2 rfl
    simp only [msrTo, andThen_next, readX_withStorage, writeTarget_withStorage htgt, andThen_assoc,
      complete_withStorage]

end

/-- Where EL2 is not enabled, both CPACR_EL1 accessors at EL1 carry a replaced storage pair through (rule R6). -/
theorem exec_cpacrEl1_withStorage {s : State} (h2 : s.env.el2Enabled = false) (he : s.env.el = .el1) (t : Nat)
    (c : Content) (w : List PendingWrite) :
    ∀ i ∈ [Instr.mrsCpacrEl1 t, Instr.msrCpacrEl1 t],
      exec i (s.withStorage c w) = andThen (exec i s) fun s' => .next (s'.withStorage c w) := by
  have hr (b : Bool) (tgt : Target) (s0 : State) (h : routeCpacrEl1 b s = .next (tgt, s0)) :=
    routeCpacrEl1_target_of_el1 he h
  simp only [List.forall_mem_cons, exec_mrsCpacrEl1, exec_msrCpacrEl1, State.withStorage_env,
    routeCpacrEl1_withStorage h2 he]
  exact ⟨mrsFrom_withStorage (hr _) t c w, msrTo_withStorage (hr _) t c w, List.forall_mem_nil _⟩

/-- Where EL2 is not enabled, a check gives no trap and draws nothing (rules R6, R121 (a), R150 (a)). -/
theorem cptrEl2Check_of_el2_off {s : State} (h : s.env.el2Enabled = false) (i : ClassInputs) (el : EL)
    (st : ExecState) : cptrEl2Check i el st s = .next (.noTrap, s) := by
  simp [cptrEl2Check, h]

/-! ## The statements -/

/-- Settles O44: a check ends at its first test, and from EL1 the route of a CPACR_EL1 accessor neither reads the storage
nor leads to it. -/
theorem noEffectWithoutEL2 : Obligations.NoEffectWithoutEL2 := fun _ h2 =>
  ⟨cptrEl2Check_of_el2_off h2, fun t c w he => exec_cpacrEl1_withStorage h2 he t c w⟩

/-- Settles O9: both routes raise Undefined, which ends either direction. -/
theorem undefinedWithoutAA64AndAtEL0 : Obligations.UndefinedWithoutAA64AndAtEL0 := by
  intro s t h
  have hCptr := routeCptrEl2_undefined h
  refine ⟨?_, ?_, fun hVHE => ?_⟩
  · rw [exec_mrsCptrEl2, hCptr, mrsFrom_raiseUndefined]
  · rw [exec_msrCptrEl2, hCptr, msrTo_raiseUndefined]
  · have hCpacr := routeCpacrEl1_undefined h hVHE
    rw [exec_mrsCpacrEl1, exec_msrCpacrEl1, hCpacr, hCpacr]
    exact ⟨mrsFrom_raiseUndefined t, msrTo_raiseUndefined t⟩

/-- Settles O28: HCPTR is the slice of the low 32 bits, and a full content gives every slice. -/
theorem hcptrIsTheLowHalf : Obligations.HcptrIsTheLowHalf := by
  intro c h
  rw [Content.hcptr, Content.slice?_of_full h 0 32 (by decide), BitVec.setWidth_eq_extractLsb' (by decide)]

end Sys2Proof.Machine
end

section
/-!
The routes of the four accessors and everything a completed instruction does: what reaches the storage (rules R38, R105,
R190), and one inversion lemma for `exec`.
-/

namespace Sys2Proof.Machine

/-! ## Who reaches the storage -/

/-- The arms of the accessors by a name; `fgtBit` is used by the name CPACR_EL1 only. -/
def routeBy : AccessorName → Bool → State → Result (Target × State)
  | .cptrEl2, _, s => routeCptrEl2 s
  | .cpacrEl1, fgtBit, s => routeCpacrEl1 fgtBit s

theorem exec_mrsBy (n : AccessorName) (t : Nat) (s : State) :
    exec (mrsBy n t) s = mrsFrom t (routeBy n s.env.hfgrtrCpacrEl1 s) := by cases n <;> rfl

theorem exec_msrBy (n : AccessorName) (t : Nat) (s : State) :
    exec (msrBy n t) s = msrTo t (routeBy n s.env.hfgwtrCpacrEl1 s) := by cases n <;> rfl

theorem exec_sync (s : State) : exec .sync s = complete (synchronize s) := rfl

theorem mrsBy_number {n m : AccessorName} {t u : Nat} (h : mrsBy n t = mrsBy m u) : t = u := by
  cases n <;> cases m <;> cases h <;> rfl

theorem mrsBy_ne_msrBy (n m : AccessorName) (t u : Nat) : mrsBy n t ≠ msrBy m u := by
  cases n <;> cases m <;> simp [mrsBy, msrBy]

theorem mrsBy_ne_sync (n : AccessorName) (t : Nat) : mrsBy n t ≠ .sync := by
  cases n <;> simp [mrsBy]

/-- Every instruction but `SYNC` is an accessor by one of the two names. -/
theorem instr_cases (i : Instr) : (∃ n t, i = mrsBy n t) ∨ (∃ n t, i = msrBy n t) ∨ i = .sync := by
  cases i with
  | mrsCptrEl2 t => exact .inl ⟨.cptrEl2, t, rfl⟩
  | msrCptrEl2 t => exact .inr (.inl ⟨.cptrEl2, t, rfl⟩)
  | mrsCpacrEl1 t => exact .inl ⟨.cpacrEl1, t, rfl⟩
  | msrCpacrEl1 t => exact .inr (.inl ⟨.cpacrEl1, t, rfl⟩)
  | sync => exact .inr (.inr rfl)

theorem el3Forbids_iff (s : State) : EL3Forbids s ↔ (s.params.haveEL3 && s.env.cptrEl3Tcpac) = true := by
  simp [EL3Forbids]

/-- Where EL3 does not forbid the access, neither of its tests stops it (rule R106). -/
theorem el3Gates_of_not_forbids {α : Type} {s : State} (h : ¬ EL3Forbids s) (k : Result α) :
    el3Priority s (el3Trap s k) = k := by
  rw [el3Forbids_iff] at h
  have hPriority : ¬ (s.params.haveEL3 && s.env.el3SDDUndefPriority && s.env.cptrEl3Tcpac) = true := by
    rw [Bool.and_right_comm]
    simp [h]
  rw [el3Priority, if_neg hPriority, el3Trap, if_neg h]

/-- Where EL3 forbids the access, one of its tests stops it (rule R106). -/
theorem el3Gates_eq_next {α : Type} {s : State} {k : Result α} {a : α} (h : el3Priority s (el3Trap s k) = .next a) :
    ¬ EL3Forbids s ∧ k = .next a := by
  obtain ⟨-, h⟩ := el3Priority_eq_next.1 h
  obtain ⟨hForbids, h⟩ := el3Trap_eq_next.1 h
  exact ⟨by simp [el3Forbids_iff, hForbids], h⟩

/-- An access to the storage that no test stops arrives there, with nothing changed on the way. -/
theorem routeBy_of_reaches {n : AccessorName} {s : State} (h : ReachesStorage n s) (fgtBit : Bool) :
    routeBy n fgtBit s = .next (.cptr n, s) := by
  obtain ⟨hAA64, ⟨hEl, hForbids, hHost⟩ | ⟨hEl, rfl⟩⟩ := h
  · cases n with
    | cptrEl2 => simp [routeBy, routeCptrEl2, hAA64, hEl, el3Gates_of_not_forbids hForbids]
    | cpacrEl1 =>
      obtain ⟨hVHE, hIn⟩ := hHost rfl
      simp [routeBy, routeCpacrEl1, hVHE, hAA64, hEl, hIn, el3Gates_of_not_forbids hForbids]
  · simp [routeBy, routeCptrEl2, hAA64, hEl]

/-- Everything the arms do when no test stops the access: the level is above EL0, at most the draw counter changes, and
the storage is reached only as `ReachesStorage` says. -/
theorem routeBy_eq_next {n : AccessorName} {fgtBit : Bool} {s s0 : State} {tgt : Target}
    (h : routeBy n fgtBit s = .next (tgt, s0)) :
    s.env.el ≠ .el0 ∧ (∃ d, s0 = s.withDraws d) ∧
      ∀ m, tgt = .cptr m → m = n ∧ s0 = s ∧ ReachesStorage n s := by
  cases n with
  | cptrEl2 =>
    obtain ⟨rfl, rfl, hAA64, hEl⟩ := routeCptrEl2_eq_next h
    refine ⟨by rcases hEl with hEl | hEl <;> simp [hEl], ⟨s0.draws, rfl⟩, fun m hm => ?_⟩
    refine ⟨(Target.cptr.inj hm).symm, rfl, hAA64, hEl.imp (fun hEl2 => ⟨hEl2, ?_, nofun⟩) (⟨·, rfl⟩)⟩
    simp only [routeBy, routeCptrEl2, hAA64, hEl2] at h
    exact (el3Gates_eq_next h).1
  | cpacrEl1 =>
    obtain ⟨hVHE, hAA64, hDraws, ⟨hEl, hTgt⟩ | ⟨hEl, rfl, hTgt⟩ | ⟨hEl, rfl, hTgt⟩⟩ := routeCpacrEl1_eq_next h
    · refine ⟨by simp [hEl], hDraws, fun m hm => ?_⟩
      exact absurd hm (routeCpacrEl1_target_of_el1 hEl h m)
    · refine ⟨by simp [hEl], hDraws, fun m hm => ?_⟩
      rcases hTgt with ⟨hIn, rfl⟩ | ⟨-, rfl⟩
      · simp only [routeBy, routeCpacrEl1, hVHE, hAA64, hEl] at h
        exact ⟨(Target.cptr.inj hm).symm, rfl, hAA64, .inl ⟨hEl, (el3Gates_eq_next h).1, fun _ => ⟨hVHE, hIn⟩⟩⟩
      · simp at hm
    · exact ⟨by simp [hEl], hDraws, fun m hm => by simp [hTgt] at hm⟩

/-- The arms lead to the storage exactly by their own name, where `ReachesStorage` holds. -/
theorem routeBy_reaches_iff (n m : AccessorName) (fgtBit : Bool) (s : State) :
    (∃ s', routeBy n fgtBit s = .next (.cptr m, s')) ↔ m = n ∧ ReachesStorage n s := by
  constructor
  · rintro ⟨s', h⟩
    obtain ⟨-, -, hCptr⟩ := routeBy_eq_next h
    obtain ⟨hName, -, hReaches⟩ := hCptr m rfl
    exact ⟨hName, hReaches⟩
  · rintro ⟨rfl, h⟩
    exact ⟨s, routeBy_of_reaches h fgtBit⟩

/-- Settles O15: each name's arms lead to the storage exactly where `ReachesStorage` holds of that name. -/
theorem whoReachesTheStorage : Obligations.WhoReachesTheStorage := fun s fgtBit n =>
  ⟨routeBy_reaches_iff .cptrEl2 n fgtBit s, routeBy_reaches_iff .cpacrEl1 n fgtBit s⟩

/-! ## Everything a completed instruction does -/

/-- What a completed instruction does to the state before the pc advances, with what let it; by
`exec_effect` there is nothing else. -/
inductive Effect (i : Instr) (s : State) : State → Prop where
  /-- An MRS: a value goes to `x[t]` (rules R100, R102). -/
  | read (n : AccessorName) (t : Nat) (hi : i = mrsBy n t) (hEl : s.env.el ≠ .el0) (v : Word) (d : Nat) :
      Effect i s (writeX t v (s.withDraws d))
  /-- An MSR to the register that is RES0 from EL3 (rule R33). -/
  | ignored (n : AccessorName) (t : Nat) (hi : i = msrBy n t) (hReaches : ReachesStorage n s)
      (hRes0 : res0FromEL3 s = true) : Effect i s s
  /-- An MSR to the storage: a write becomes pending (rules R31, R68). -/
  | pend (n : AccessorName) (t : Nat) (hi : i = msrBy n t) (hReaches : ReachesStorage n s) (v : Word)
      (hv : readX t s = .next v) (hAdmitted : WriteAdmitted v s) : Effect i s (directWrite n v s)
  /-- An MSR to CPACR_EL1 (rule R103). -/
  | storeCpacr (n : AccessorName) (t : Nat) (hi : i = msrBy n t) (d : Nat)
      (hRoute : routeBy n s.env.hfgwtrCpacrEl1 s = .next (.cpacrEl1, s.withDraws d)) (v : Word)
      (hv : readX t s = .next v) : Effect i s ((s.withDraws d).withCpacrEl1 v)
  /-- An MSR to `NVMem(0x100)` (rules R65, R103). -/
  | storeNvmem (n : AccessorName) (t : Nat) (hi : i = msrBy n t) (d : Nat)
      (hRoute : routeBy n s.env.hfgwtrCpacrEl1 s = .next (.nvmem, s.withDraws d)) (v : Word)
      (hv : readX t s = .next v) : Effect i s (nvWrite 0x100 v (s.withDraws d))
  /-- `SYNC` (rule R69). -/
  | publish (hi : i = .sync) : Effect i s (synchronize s)

theorem mrsBy_effect {n : AccessorName} {t : Nat} {s s' : State} (h : exec (mrsBy n t) s = .next s') :
    ∃ s1, Effect (mrsBy n t) s s1 ∧ complete s1 = .next s' := by
  rw [exec_mrsBy] at h
  obtain ⟨tgt, s0, v, s1, hRoute, hRead, hDone⟩ := mrsFrom_eq_next.1 h
  obtain ⟨hEl, ⟨d, rfl⟩, -⟩ := routeBy_eq_next hRoute
  obtain ⟨d', rfl⟩ := readTarget_state hRead
  exact ⟨_, .read n t rfl hEl v d', hDone⟩

theorem msrBy_effect {n : AccessorName} {t : Nat} {s s' : State} (h : exec (msrBy n t) s = .next s') :
    ∃ s1, Effect (msrBy n t) s s1 ∧ complete s1 = .next s' := by
  rw [exec_msrBy] at h
  obtain ⟨tgt, s0, v, s1, hRoute, hv, hWrite, hDone⟩ := msrTo_eq_next.1 h
  obtain ⟨-, ⟨d, rfl⟩, hCptr⟩ := routeBy_eq_next hRoute
  rw [readX_withDraws] at hv
  refine ⟨s1, ?_, hDone⟩
  cases tgt with
  | cptr m =>
    obtain ⟨rfl, hs0, hReaches⟩ := hCptr m rfl
    rw [hs0] at hWrite
    rcases writeCptr_eq_next.1 hWrite with ⟨hRes0, rfl⟩ | ⟨hRes0, hMask, hRes, rfl⟩
    · exact .ignored m t rfl hReaches hRes0
    · exact .pend m t rfl hReaches v hv ⟨hRes0, hMask, hRes⟩
  | cpacrEl1 =>
    obtain rfl := Host.Outcome.next.inj hWrite
    exact .storeCpacr n t rfl d hRoute v hv
  | nvmem =>
    obtain rfl := Host.Outcome.next.inj hWrite
    exact .storeNvmem n t rfl d hRoute v hv

/-- An effect leaves the pc where it is; completing moves it. -/
theorem Effect.pc {i : Instr} {s s1 : State} (h : Effect i s s1) : s1.pc = s.pc := by
  cases h with
  | read => simp
  | ignored => rfl
  | pend => rfl
  | storeCpacr => rfl
  | storeNvmem => rfl
  | publish => simp

/-- An instruction that completes has one of the effects, had room for the pc, and advances it by 4 (rule R57). -/
theorem exec_effect {i : Instr} {s s' : State} (h : exec i s = .next s') :
    PcHasRoom s ∧ ∃ s1, Effect i s s1 ∧ s' = s1.withPc (s.pc + 4#64) := by
  have hEffect : ∃ s1, Effect i s s1 ∧ complete s1 = .next s' := by
    rcases instr_cases i with ⟨n, t, rfl⟩ | ⟨n, t, rfl⟩ | rfl
    · exact mrsBy_effect h
    · exact msrBy_effect h
    · exact ⟨_, .publish rfl, h⟩
  obtain ⟨s1, hEffect, hDone⟩ := hEffect
  obtain ⟨hRoom, rfl⟩ := complete_eq_next.1 hDone
  rw [hEffect.pc] at hRoom ⊢
  exact ⟨hRoom, s1, hEffect, rfl⟩

/-- A step that gives a next state has an effect of the instruction it fetched, and advances the pc by 4. -/
theorem step_effect {s s' : State} (h : step s = .next s') :
    ∃ i s1, Effect i s s1 ∧ s' = s1.withPc (s.pc + 4#64) := by
  obtain ⟨i, -, hExec⟩ := step_eq_next.1 h
  obtain ⟨-, s1, hEffect, hs'⟩ := exec_effect hExec
  exact ⟨i, s1, hEffect, hs'⟩

/-- No effect changes the parameters, the policies, the inputs or the program text. -/
theorem Effect.sameSurroundings {i : Instr} {s s1 : State} (h : Effect i s s1) : SameSurroundings s s1 := by
  cases h with
  | read => simp [SameSurroundings]
  | ignored => exact ⟨rfl, rfl, rfl, rfl⟩
  | pend => exact ⟨rfl, rfl, rfl, rfl⟩
  | storeCpacr => exact ⟨rfl, rfl, rfl, rfl⟩
  | storeNvmem => exact ⟨rfl, rfl, rfl, rfl⟩
  | publish => simp [SameSurroundings]

/-- What a synchronisation leaves in `base` held of some content before. -/
theorem everyContent_synchronize {P : Content → Prop} {s : State} (h : EveryContent P s) :
    EveryContent P (synchronize s) := by
  by_cases hPending : s.pending = []
  · rwa [synchronize_of_no_pending hPending]
  · obtain ⟨c, n, hLast, hSync⟩ := synchronize_of_pending hPending
    obtain ⟨e, he, -, rfl⟩ := lastNamed_mem hLast
    rw [hSync]
    exact ⟨h.2 e he, nofun⟩

/-- A property of contents that the merge of every admitted write keeps is kept by every effect. -/
theorem Effect.everyContent {P : Content → Prop} {i : Instr} {s s1 : State} (h : Effect i s s1)
    (hMerge : ∀ v old, WriteAdmitted v s → P old → P (Content.merge (readOnlyMask s) v old))
    (hs : EveryContent P s) : EveryContent P s1 := by
  cases h with
  | read => simpa [EveryContent] using hs
  | ignored => exact hs
  | pend n t hi hReaches v hv hAdmitted =>
    refine ⟨hs.1, fun e he => ?_⟩
    rcases List.mem_append.1 he with he | he
    · exact hs.2 e he
    · rw [List.mem_singleton.1 he]
      exact hMerge v _ hAdmitted (directRead_of_every n hs.1 hs.2)
  | storeCpacr => exact hs
  | storeNvmem => exact hs
  | publish => exact everyContent_synchronize hs

/-! ## The properties of contents that a merge keeps (rule R31) -/

theorem word_eq_zero_iff {w : Word} : w = 0#64 ↔ ∀ k, k < 64 → w.getLsbD k = false := by
  simp only [BitVec.eq_of_getLsbD_eq_iff, BitVec.getLsbD_zero]

theorem Content.wf_iff {c : Content} :
    c.wf = true ↔ ∀ k, k < 64 → c.known.getLsbD k = false → c.bits.getLsbD k = false := by
  rw [Content.wf, beq_iff_eq, word_eq_zero_iff]
  refine forall₂_congr fun k hk => ?_
  rw [BitVec.getLsbD_and, BitVec.getLsbD_not, decide_eq_true hk, Bool.true_and]
  cases c.known.getLsbD k <;> simp

theorem Content.full_iff {c : Content} : c.full = true ↔ ∀ k, k < 64 → c.known.getLsbD k = true := by
  rw [Content.full, beq_iff_eq]
  constructor
  · intro h k hk
    rw [h, BitVec.getLsbD_allOnes, decide_eq_true hk]
  · intro h
    exact BitVec.eq_of_getLsbD_eq fun k hk => by rw [h k hk, BitVec.getLsbD_allOnes, decide_eq_true hk]

theorem Content.reservedAtShouldBe_iff {p : Params} {l : Layout} {c : Content} :
    c.reservedAtShouldBe p l = true ↔ ∀ k, k < 64 → c.known.getLsbD k = true →
      ((res0Mask p l).getLsbD k = true → c.bits.getLsbD k = false) ∧
        ((res1Mask p l).getLsbD k = true → c.bits.getLsbD k = true) := by
  rw [Content.reservedAtShouldBe, Bool.and_eq_true, beq_iff_eq, beq_iff_eq, word_eq_zero_iff, word_eq_zero_iff,
    ← forall₂_and]
  refine forall₂_congr fun k hk => ?_
  simp only [BitVec.getLsbD_and, BitVec.getLsbD_not, decide_eq_true hk, Bool.true_and]
  cases c.known.getLsbD k <;> cases c.bits.getLsbD k <;> simp

/-- A value passes the reserved-bit test exactly where each of its reserved bits is at its should-be value
(rule R32). -/
theorem resViolation_eq_false_iff {p : Params} {l : Layout} {v : Word} :
    resViolation p l v = false ↔ ∀ k, k < 64 →
      ((res0Mask p l).getLsbD k = true → v.getLsbD k = false) ∧
        ((res1Mask p l).getLsbD k = true → v.getLsbD k = true) := by
  rw [resViolation, Bool.or_eq_false_iff, bne_eq_false_iff_eq, bne_eq_false_iff_eq, word_eq_zero_iff, word_eq_zero_iff,
    ← forall₂_and]
  refine forall₂_congr fun k hk => ?_
  simp only [BitVec.getLsbD_and, BitVec.getLsbD_not, decide_eq_true hk, Bool.true_and]
  cases v.getLsbD k <;> simp

/-- A bit of a merge is one that the old content kept or one of the value written, and then it holds a value. -/
theorem Content.merge_bit (keep v : Word) (old : Content) {k : Nat} (hk : k < 64) :
    ((Content.merge keep v old).bits.getLsbD k = old.bits.getLsbD k ∧
        (Content.merge keep v old).known.getLsbD k = old.known.getLsbD k) ∨
      ((Content.merge keep v old).bits.getLsbD k = v.getLsbD k ∧
        (Content.merge keep v old).known.getLsbD k = true) := by
  cases hKeep : keep.getLsbD k with
  | true => exact .inl (Content.merge_kept hKeep)
  | false => exact .inr (Content.merge_written hk hKeep)

theorem Content.wf_merge {keep v : Word} {old : Content} (h : old.wf = true) :
    (Content.merge keep v old).wf = true := by
  rw [Content.wf_iff] at h ⊢
  intro k hk hUnknown
  rcases Content.merge_bit keep v old hk with ⟨hBits, hKnown⟩ | ⟨-, hKnown⟩
  · rw [hBits]
    exact h k hk (hKnown ▸ hUnknown)
  · simp [hKnown] at hUnknown

theorem Content.full_merge {keep v : Word} {old : Content} (h : old.full = true) :
    (Content.merge keep v old).full = true := by
  rw [Content.full_iff] at h ⊢
  intro k hk
  rcases Content.merge_bit keep v old hk with ⟨-, hKnown⟩ | ⟨-, hKnown⟩
  · rw [hKnown, h k hk]
  · exact hKnown

theorem Content.reservedAtShouldBe_merge {p : Params} {l : Layout} {keep v : Word} {old : Content}
    (hv : resViolation p l v = false) (h : old.reservedAtShouldBe p l = true) :
    (Content.merge keep v old).reservedAtShouldBe p l = true := by
  rw [Content.reservedAtShouldBe_iff] at h ⊢
  intro k hk hHeld
  rcases Content.merge_bit keep v old hk with ⟨hBits, hKnown⟩ | ⟨hBits, -⟩
  · rw [hBits]
    exact h k hk (hKnown ▸ hHeld)
  · rw [hBits]
    exact resViolation_eq_false_iff.1 hv k hk

/-! ## The invariants -/

/-- Settles O37: no effect changes the surroundings, and completing advances the pc. -/
theorem stepKeepsSurroundings : Obligations.StepKeepsSurroundings := by
  intro s s' h
  obtain ⟨i, s1, hEffect, rfl⟩ := step_effect h
  exact ⟨hEffect.sameSurroundings, rfl⟩

/-- Advancing an aligned pc by 4 leaves it aligned. -/
theorem pc_add_four_aligned {pc : Word} (h : pc.extractLsb' 0 2 = 0#2) : (pc + 4#64).extractLsb' 0 2 = 0#2 := by
  rw [← BitVec.toNat_inj] at h ⊢
  simp at h ⊢
  omega

/-- An effect keeps the canonical form of NVMem: the one cell it may write is put in order. -/
theorem Effect.nvmem_wf {i : Instr} {s s1 : State} (h : Effect i s s1) (hs : Memory.wf s.nvmem = true) :
    Memory.wf s1.nvmem = true := by
  cases h with
  | read => simpa using hs
  | ignored => exact hs
  | pend => exact hs
  | storeCpacr => exact hs
  | storeNvmem n t hi d hRoute v => exact Memory.wf_write 0x100 v s.nvmem hs
  | publish => simpa using hs

/-- Settles O38: no effect touches the text, a cell of NVMem is written in order, and a merge keeps a content's form. -/
theorem stepKeepsCanonicalForms : Obligations.StepKeepsCanonicalForms := by
  intro s s' hs hPc h
  obtain ⟨hText, hNvmem, hContents⟩ := hs
  obtain ⟨i, s1, hEffect, rfl⟩ := step_effect h
  obtain ⟨-, -, -, hSameText⟩ := hEffect.sameSurroundings
  refine ⟨⟨hSameText ▸ hText, hEffect.nvmem_wf hNvmem, ?_⟩, pc_add_four_aligned hPc⟩
  exact hEffect.everyContent (fun _ _ _ => Content.wf_merge) hContents

/-- Settles O39: a merge takes each bit from a value that passed the reserved-bit test or from a content that had its
reserved bits right, and no effect changes the layout. -/
theorem stepKeepsReservedBits : Obligations.StepKeepsReservedBits := by
  intro s s' hs h
  obtain ⟨i, s1, hEffect, rfl⟩ := step_effect h
  obtain ⟨hParams, -, hEnv, -⟩ := hEffect.sameSurroundings
  have hContents : EveryContent (fun c => c.reservedAtShouldBe s.params (layoutOf s.env.e2h) = true) s1 :=
    hEffect.everyContent (fun _ _ ⟨_, _, hRes⟩ => Content.reservedAtShouldBe_merge hRes) hs
  rwa [← hParams, ← hEnv] at hContents

/-- A register write leaves every X register that held a value holding one. -/
theorem xHeld_writeX {t : Nat} {v : Word} {s : State} (hs : s.xHeld = BitVec.allOnes 31) :
    (writeX t v s).xHeld = BitVec.allOnes 31 := by
  unfold writeX
  split
  · rw [State.withRegs_xHeld, hs, BitVec.allOnes_or]
  · exact hs

/-- An effect leaves every X register holding a value: a write adds one. -/
theorem Effect.xHeld {i : Instr} {s s1 : State} (h : Effect i s s1) (hs : s.xHeld = BitVec.allOnes 31) :
    s1.xHeld = BitVec.allOnes 31 := by
  cases h with
  | read n t hi hEl v d => exact xHeld_writeX hs
  | ignored => exact hs
  | pend => exact hs
  | storeCpacr => exact hs
  | storeNvmem => exact hs
  | publish => simpa using hs

/-- Settles O40: a register write adds a held register, and a merge with a full content is full. -/
theorem stepKeepsEveryRegisterHeld : Obligations.StepKeepsEveryRegisterHeld := by
  intro s s' hs h
  obtain ⟨hHeld, hContents⟩ := hs
  obtain ⟨i, s1, hEffect, rfl⟩ := step_effect h
  exact ⟨hEffect.xHeld hHeld, hEffect.everyContent (fun _ _ _ => Content.full_merge) hContents⟩

/-! ## What completes, and what changes the storage -/

/-- Settles O8: every instruction that completes had room for the pc, and a synchronisation does not move it. -/
theorem pcNeverWraps : Obligations.PcNeverWraps := by
  intro s hRoom
  refine ⟨fun i s' h => hRoom (exec_effect h).1, ?_⟩
  rw [exec_sync, complete, synchronize_pc, if_neg hRoom]

/-- The storage is reached from EL2 or EL3 only (rules R38, R190). -/
theorem ReachesStorage.above_el1 {n : AccessorName} {s : State} (h : ReachesStorage n s) :
    s.env.el ≠ .el0 ∧ s.env.el ≠ .el1 := by
  obtain ⟨-, ⟨hEl, -⟩ | ⟨hEl, -⟩⟩ := h
  · simp [hEl]
  · simp [hEl]

/-- An effect from EL0 is that of `SYNC`. -/
theorem Effect.above_el0 {i : Instr} {s s1 : State} (h : Effect i s s1) (hi : i ≠ .sync) : s.env.el ≠ .el0 := by
  cases h with
  | read n t hi hEl => exact hEl
  | ignored n t hi hReaches => exact hReaches.above_el1.1
  | pend n t hi hReaches => exact hReaches.above_el1.1
  | storeCpacr n t hi d hRoute => exact (routeBy_eq_next hRoute).1
  | storeNvmem n t hi d hRoute => exact (routeBy_eq_next hRoute).1
  | publish hi' => exact absurd hi' hi

/-- An effect at EL1 other than that of `SYNC` leaves the storage pair alone. -/
theorem Effect.storage_of_el1 {i : Instr} {s s1 : State} (h : Effect i s s1) (hi : i ≠ .sync)
    (hEl : s.env.el = .el1) : s1.base = s.base ∧ s1.pending = s.pending := by
  cases h with
  | read => simp
  | ignored => exact ⟨rfl, rfl⟩
  | pend n t hi hReaches => exact absurd hEl hReaches.above_el1.2
  | storeCpacr => exact ⟨rfl, rfl⟩
  | storeNvmem => exact ⟨rfl, rfl⟩
  | publish hi' => exact absurd hi' hi

/-- Settles O16: the one effect that makes a write pending needs EL2 or EL3, and only `SYNC` has one at EL0. -/
theorem guestNeverChangesTheStorage : Obligations.GuestNeverChangesTheStorage := by
  intro i s s' hLevel h hi
  obtain ⟨-, s1, hEffect, rfl⟩ := exec_effect h
  have hEl : s.env.el = .el1 := hLevel.resolve_left (hEffect.above_el0 hi)
  exact ⟨hEl, hEffect.storage_of_el1 hi hEl⟩

/-- The only effect of an MRS is a register write and at most a draw. -/
theorem Effect.of_mrsBy {n : AccessorName} {t : Nat} {s s1 : State} (h : Effect (mrsBy n t) s s1) :
    ∃ v d, s1 = writeX t v (s.withDraws d) := by
  cases h with
  | read m u hi hEl v d =>
    obtain rfl := mrsBy_number hi
    exact ⟨v, d, rfl⟩
  | ignored m u hi => exact absurd hi (mrsBy_ne_msrBy n m t u)
  | pend m u hi => exact absurd hi (mrsBy_ne_msrBy n m t u)
  | storeCpacr m u hi => exact absurd hi (mrsBy_ne_msrBy n m t u)
  | storeNvmem m u hi => exact absurd hi (mrsBy_ne_msrBy n m t u)
  | publish hi => exact absurd hi (mrsBy_ne_sync n t)

/-- Settles O35: a register write leaves every other register and the rest of the state alone. -/
theorem mrsFrame : Obligations.MrsFrame := by
  intro n t s s' h
  obtain ⟨-, s1, hEffect, rfl⟩ := exec_effect h
  obtain ⟨v, d, rfl⟩ := hEffect.of_mrsBy
  refine ⟨fun r hr => ?_, rfl, by simp, by simp, by simp, by simp, by simp, by simp [SameSurroundings]⟩
  rw [readX_withPc, readX_writeX_other v _ hr, readX_withDraws]

end Sys2Proof.Machine
end

section
/-!
The direct accesses to the storage (`spec/10_state.md`): what an MRS gives, what an MSR leaves pending, and which
writes are refused; the masks, the Warm reset, and that no step ends for want of a value where every register holds one.
-/

namespace Sys2Proof.Machine

/-! ## An access that reaches the storage -/

/-- Completion with room for the pc (rule R57). -/
theorem complete_of_room {s : State} (h : PcHasRoom s) : complete s = .next (s.withPc (s.pc + 4#64)) := if_pos h

/-- A direct read gives a content that rule R68 admits. -/
theorem directCandidate_directRead (n : AccessorName) (s : State) : DirectCandidate n s (directRead n s).1 := by
  rcases choose_mem s.draws (ownContent n s) (otherNamed n s.pending) with h | h
  · exact .inl h
  · exact .inr (mem_otherNamed h)

theorem exec_mrsBy_of_reaches {n : AccessorName} {s : State} (h : ReachesStorage n s) (t : Nat) :
    exec (mrsBy n t) s = andThen (readCptr n s) fun r => complete (writeX t r.1 r.2) := by
  rw [exec_mrsBy, routeBy_of_reaches h]
  rfl

theorem exec_msrBy_of_reaches {n : AccessorName} {s : State} {t : Nat} {v : Word} (h : ReachesStorage n s)
    (hv : readX t s = .next v) : exec (msrBy n t) s = andThen (writeCptr n v s) complete := by
  rw [exec_msrBy, routeBy_of_reaches h]
  simp only [msrTo, andThen_next, hv]
  rfl

theorem full_directRead (n : AccessorName) {s : State} (h : EveryContent (fun c => c.full = true) s) :
    (directRead n s).1.full = true :=
  directRead_of_every (P := fun c => c.full = true) n h.1 h.2

/-- Settles O17: a direct read of full contents gives one that rule R68 admits, and the instruction has room to
complete. -/
theorem mrsReadsTheStorage : Obligations.MrsReadsTheStorage := by
  intro n t s hReaches hPresent hFull hRoom
  have hRead : readCptr n s = .next ((directRead n s).1.bits, s.withDraws (s.draws + 1)) :=
    readCptr_eq_next.2 (.inr ⟨hPresent, full_directRead n hFull, rfl, rfl⟩)
  refine ⟨(directRead n s).1, directCandidate_directRead n s, ?_⟩
  rw [exec_mrsBy_of_reaches hReaches, hRead, andThen_next, complete_of_room (by simpa using hRoom), writeX_pc,
    State.withDraws_pc]

/-- Settles O18: what a direct read gives is one of the contents, and none is full. -/
theorem mrsOfUnknownContentFaults : Obligations.MrsOfUnknownContentFaults := by
  intro n t s hReaches hPresent hNone
  have hUnknown : (directRead n s).1.full = false :=
    directRead_of_every (P := fun c => c.full = false) n hNone.1 hNone.2
  have hRead : readCptr n s = .fault .unknownValue := by simp [readCptr, hPresent, hUnknown]
  rw [exec_mrsBy_of_reaches hReaches, hRead, andThen_fault]

/-- Settles O19: from EL3 without EL2 a read gives zero and a write changes nothing. -/
theorem res0FromEL3WithoutEL2 : Obligations.Res0FromEL3WithoutEL2 := by
  intro s t hEL2 hEl hAA64 hRoom
  have hReaches : ReachesStorage .cptrEl2 s := ⟨hAA64, .inr ⟨hEl, rfl⟩⟩
  have hRes0 : res0FromEL3 s = true := by simp [res0FromEL3, hEL2, hEl]
  refine ⟨?_, fun v hv => ?_⟩
  · have hRead : readCptr .cptrEl2 s = .next (0#64, s) := readCptr_eq_next.2 (.inl ⟨hRes0, rfl, rfl⟩)
    refine (exec_mrsBy_of_reaches hReaches t).trans ?_
    rw [hRead, andThen_next, complete_of_room (by simpa using hRoom), writeX_pc]
  · have hWrite : writeCptr .cptrEl2 v s = .next s := writeCptr_eq_next.2 (.inl ⟨hRes0, rfl⟩)
    refine (exec_msrBy_of_reaches hReaches hv).trans ?_
    rw [hWrite, andThen_next, complete_of_room hRoom]

/-! ## The write tests (rules R31, R32, R36, R37) -/

theorem maskingApplies_iff (s : State) :
    maskingApplies s = true ↔ s.params.featSRMASK = true ∧ s.env.el = .el2 ∧ s.env.srMaskEnabledEL2 = true := by
  simp [maskingApplies, and_assoc]

/-- The mask of the read-only fields has a one exactly at their bits (rule R36). -/
theorem readOnlyMask_bit (s : State) {k : Nat} (hk : k < 64) :
    (readOnlyMask s).getLsbD k = true ↔ ReadOnlyBit s k := by
  have hRows := maskWhere_bit (fun r => r.present && s.env.cptrMask.bit r.field) (layoutRows s.params .a) hk
    fun r hr => (layoutRows_bounds hr).1
  simp only [Bool.and_eq_true, and_assoc] at hRows
  unfold readOnlyMask
  split
  · next hOn =>
    obtain ⟨hMasking, hE2h⟩ := Bool.and_eq_true_iff.1 hOn
    obtain ⟨hFeat, hEl, hEnabled⟩ := (maskingApplies_iff s).1 hMasking
    rw [hRows, ReadOnlyBit]
    simp only [hFeat, hEl, hEnabled, hE2h, true_and]
  · next hOff =>
    rw [Bool.and_eq_true, maskingApplies_iff] at hOff
    rw [BitVec.getLsbD_zero]
    exact ⟨nofun, fun ⟨hFeat, hEl, hEnabled, hE2h, _⟩ => absurd ⟨⟨hFeat, hEl, hEnabled⟩, hE2h⟩ hOff⟩

/-- Settles O23: the appended entry is the merge of the value with a content that rule R68 admits, under the mask of the
read-only bits. -/
theorem msrAppendsAPendingWrite : Obligations.MsrAppendsAPendingWrite := by
  intro n t s v hReaches ⟨hPresent, hMasking, hReserved⟩ hv hRoom
  have hWrite : writeCptr n v s = .next (directWrite n v s) :=
    writeCptr_eq_next.2 (.inr ⟨hPresent, hMasking, hReserved, rfl⟩)
  refine ⟨(directRead n s).1, Content.merge (readOnlyMask s) v (directRead n s).1, directCandidate_directRead n s, ?_,
    fun k hk => ⟨fun hKept => ?_, fun hWritten => ?_⟩⟩
  · rw [exec_msrBy_of_reaches hReaches hv, hWrite, andThen_next]
    exact complete_of_room hRoom
  · exact Content.merge_kept ((readOnlyMask_bit s hk).2 hKept)
  · rw [← readOnlyMask_bit s hk, Bool.not_eq_true] at hWritten
    exact Content.merge_written hk hWritten

/-- Settles O24: one reserved bit not at its should-be value is a violation, and the reserved-bit test is the last. -/
theorem reservedBitWriteIsRefused : Obligations.ReservedBitWriteIsRefused := by
  intro n t s v k hReaches hPresent hMasking hv hk hBit
  have hViolation : resViolation s.params (layoutOf s.env.e2h) v = true := by
    by_contra hNone
    rw [Bool.not_eq_true] at hNone
    obtain ⟨hRes0, hRes1⟩ := resViolation_eq_false_iff.1 hNone k hk
    rcases hBit with ⟨hMask, hSet⟩ | ⟨hMask, hClear⟩
    · exact Bool.false_ne_true ((hRes0 hMask).symm.trans hSet)
    · exact Bool.false_ne_true (hClear.symm.trans (hRes1 hMask))
  have hWrite : writeCptr n v s = .refused .resViolation := by
    simp only [writeCptr, hPresent, hMasking, hViolation, if_true, if_false, Bool.false_eq_true]
  rw [exec_msrBy_of_reaches hReaches hv, hWrite, andThen_refused]

/-- Settles O25: the write meets the test of rule R37, which no read makes. -/
theorem maskedWriteInLayoutBIsRefused : Obligations.MaskedWriteInLayoutBIsRefused := by
  intro n t s hReaches hEl hFeat hEnabled hE2h
  have hPresent : res0FromEL3 s = false := by simp [res0FromEL3, hEl]
  refine ⟨fun v hv => ?_, mrsReadsTheStorage n t s hReaches hPresent⟩
  have hMasking : maskingApplies s = true := (maskingApplies_iff s).2 ⟨hFeat, hEl, hEnabled⟩
  have hWrite : writeCptr n v s = .refused .srmaskLayoutB := by simp [writeCptr, hPresent, hMasking, hE2h]
  rw [exec_msrBy_of_reaches hReaches hv, hWrite, andThen_refused]

/-- Settles O29: number 31 is none of the 31 registers. -/
theorem xzrReadsZeroAndDiscards : Obligations.XzrReadsZeroAndDiscards := fun s v =>
  ⟨readX_eq_next.2 (.inr ⟨by decide, rfl⟩), dif_neg (by decide)⟩

/-! ## The fetch -/

/-- Settles O5: none of the stops before the fetch applies, and the bytes found decode. -/
theorem stepRunsDecodedInstruction : Obligations.StepRunsDecodedInstruction := by
  intro s bs rest i hLaunchable hBytes hDecode
  obtain ⟨hReachable, hAligned⟩ := hLaunchable
  have hFetch : fetchInstr s = .next i := by simp [fetchInstr, hReachable, hAligned, hBytes, hDecode]
  rw [step, hFetch, andThen_next]

/-! ## The masks and the Warm reset -/

/-- Settles O27: the masks read five of the features only, and each mask is computed for each of their values. -/
theorem masksOfTheLayouts : Obligations.MasksOfTheLayouts := by
  intro p
  simp only [namedMask, res1Mask, res0Mask, layoutRows]
  generalize p.featAMUv1 = amu, p.featS1POE = poe, p.traceSysreg = trace, p.featSME = sme, p.featSVE = sve
  decide +revert

/-- A drawn content, free in its named bits and one in its RES1 bits, has its reserved bits at their should-be values. -/
theorem reservedAtShouldBe_drawn (p : Params) (l : Layout) (w : Word) :
    (Content.ofWord ((w &&& namedMask p l) ||| res1Mask p l)).reservedAtShouldBe p l = true := by
  rw [Content.reservedAtShouldBe_iff]
  intro k hk _
  simp only [Content.ofWord, res0Mask, BitVec.getLsbD_or, BitVec.getLsbD_and, BitVec.getLsbD_not, hk]
  cases (namedMask p l).getLsbD k <;> cases (res1Mask p l).getLsbD k <;> simp

/-- Settles O43: under `fault` no bit is known; under `draw` the named bits are free and the RES1 bits are set. -/
theorem warmResetLeavesTheRegisterUnknown : Obligations.WarmResetLeavesTheRegisterUnknown := by
  intro s
  refine ⟨rfl, fun hFault k hk => ?_, fun hDraw => ?_⟩
  · have hBase : (warmReset s).base = Content.noValue := by simp [warmReset, resetContent, hFault]
    rw [hBase, Content.noValue, BitVec.getLsbD_zero]
  · have hBase : (warmReset s).base = Content.ofWord ((Config.freeWord s.draws &&& namedMask s.params
        (layoutOf s.env.e2h)) ||| res1Mask s.params (layoutOf s.env.e2h)) := by
      simp [warmReset, resetContent, hDraw]
    refine ⟨?_, ?_, nofun⟩
    · rw [hBase, Content.ofWord, Content.full, beq_self_eq_true]
    · rw [hBase]
      exact reservedAtShouldBe_drawn s.params (layoutOf s.env.e2h) (Config.freeWord s.draws)

/-! ## Stops for want of a value -/

/-- The operation does not end for want of a value (rules R30, R35, R101). -/
def NotForWant {α : Type} (r : Result α) : Prop := r ≠ .fault .unknownValue ∧ r ≠ .fault .unwrittenRegister

theorem NotForWant.next {α : Type} (a : α) : NotForWant (.next a : Result α) := ⟨nofun, nofun⟩
theorem NotForWant.refused {α : Type} (f : Refusal) : NotForWant (.refused f : Result α) := ⟨nofun, nofun⟩
theorem NotForWant.undefined {α : Type} : NotForWant (raiseUndefined : Result α) := ⟨nofun, nofun⟩
theorem NotForWant.trap {α : Type} (el : EL) : NotForWant (systemAccessTrap el : Result α) := ⟨nofun, nofun⟩

theorem NotForWant.andThen {α β : Type} {r : Result α} {k : α → Result β} (hr : NotForWant r)
    (hk : ∀ a, r = .next a → NotForWant (k a)) : NotForWant (andThen r k) := by
  cases r with
  | next a => exact hk a rfl
  | fault f => exact ⟨fun h => hr.1 (by cases h; rfl), fun h => hr.2 (by cases h; rfl)⟩
  | refused f => exact .refused f

theorem NotForWant.el3Priority {α : Type} {s : State} {k : Result α} (hk : NotForWant k) :
    NotForWant (el3Priority s k) := by
  unfold Machine.el3Priority
  split
  · exact .undefined
  · exact hk

theorem NotForWant.el3Trap {α : Type} {s : State} {k : Result α} (hk : NotForWant k) : NotForWant (el3Trap s k) := by
  unfold Machine.el3Trap
  split
  · split
    · exact .undefined
    · exact .trap .el3
  · exact hk

theorem NotForWant.fgtGate {α : Type} {bit : Bool} {s : State} {k : Result α} (hk : NotForWant k) :
    NotForWant (fgtGate bit s k) := by
  unfold Machine.fgtGate
  split
  · exact .trap .el2
  · exact hk

theorem notForWant_complete (s : State) : NotForWant (complete s) := by
  unfold complete
  split
  · exact .next _
  · exact .refused _

theorem notForWant_fetchInstr (s : State) : NotForWant (fetchInstr s) := by
  unfold fetchInstr
  split
  · exact .refused _
  split
  · exact .refused _
  split
  · exact ⟨nofun, nofun⟩
  split
  · exact .refused _
  · exact .next _

theorem notForWant_writeTarget (tgt : Target) (v : Word) (s : State) :
    NotForWant (writeTarget tgt v s) := by
  cases tgt with
  | cptr n =>
    unfold writeTarget writeCptr
    dsimp only
    split
    · exact .next _
    split
    · exact .refused _
    split
    · exact .refused _
    · exact .next _
  | cpacrEl1 => exact .next _
  | nvmem => exact .next _

section
variable {s : State} (hs : EveryRegisterHeld s)
include hs

/-- Where every register holds a value, bit 31 of what a trap check sees holds one. -/
theorem notForWant_tcpacGate : NotForWant (tcpacGate s) := by
  obtain ⟨-, hBase, hPending⟩ := hs
  have hFull := indirectRead_of_every (P := fun c => c.full = true) hBase hPending
  have hBit := Content.bit?_of_full hFull (k := 31) (by decide)
  rw [tcpacGate, hBit]
  split
  · cases (indirectRead s).1.bits.getLsbD 31 with
    | true => exact .trap .el2
    | false => exact .next _
  · exact .next s

theorem notForWant_routeBy (n : AccessorName) (fgtBit : Bool) : NotForWant (routeBy n fgtBit s) := by
  cases n with
  | cptrEl2 =>
    rw [routeBy, routeCptrEl2]
    split
    · exact .undefined
    cases s.env.el with
    | el0 => exact .undefined
    | el1 =>
      dsimp only
      split
      · exact .trap .el2
      · exact .undefined
    | el2 => exact (NotForWant.next _).el3Trap.el3Priority
    | el3 => exact .next _
  | cpacrEl1 =>
    rw [routeBy, routeCpacrEl1]
    split
    · exact .refused _
    split
    · exact .undefined
    cases s.env.el with
    | el0 => exact .undefined
    | el1 => exact ((notForWant_tcpacGate hs).andThen fun s1 _ => (NotForWant.next _).el3Trap.fgtGate).el3Priority
    | el2 => exact (NotForWant.next _).el3Trap.el3Priority
    | el3 => exact .next _

theorem notForWant_readX (t : Nat) : NotForWant (readX t s) := by
  by_cases ht : t < 31
  · rw [readX_eq_next.2 (.inl ⟨ht, by rw [hs.1, BitVec.getLsbD_allOnes, decide_eq_true ht], rfl⟩)]
    exact .next _
  · rw [readX_eq_next.2 (.inr ⟨ht, rfl⟩)]
    exact .next _

theorem notForWant_readTarget (tgt : Target) : NotForWant (readTarget tgt s) := by
  cases tgt with
  | cptr n =>
    rw [readTarget, readCptr, if_pos (full_directRead n hs.2)]
    split
    · exact .next _
    · exact .next _
  | cpacrEl1 => exact .next _
  | nvmem => exact .next _

/-- Where every register holds a value no instruction ends for want of one. -/
theorem notForWant_exec (i : Instr) : NotForWant (exec i s) := by
  have hRouted {n : AccessorName} {b : Bool} {tgt : Target} {s0 : State} (h : routeBy n b s = .next (tgt, s0)) :
      EveryRegisterHeld s0 := by
    obtain ⟨-, ⟨d, rfl⟩, -⟩ := routeBy_eq_next h
    exact hs
  rcases instr_cases i with ⟨n, t, rfl⟩ | ⟨n, t, rfl⟩ | rfl
  · rw [exec_mrsBy]
    refine (notForWant_routeBy hs n _).andThen fun (tgt, s0) hRoute => ?_
    exact (notForWant_readTarget (hRouted hRoute) tgt).andThen fun r _ => notForWant_complete _
  · rw [exec_msrBy]
    refine (notForWant_routeBy hs n _).andThen fun (tgt, s0) hRoute => ?_
    refine (notForWant_readX (hRouted hRoute) t).andThen fun v _ => ?_
    exact (notForWant_writeTarget tgt v s0).andThen fun s1 _ => notForWant_complete s1
  · exact notForWant_complete (synchronize s)

end

/-- Settles O41: neither the fetch nor any instruction ends so. -/
theorem noStepEndsForWantOfAValue : Obligations.NoStepEndsForWantOfAValue := fun s hs =>
  (notForWant_fetchInstr s).andThen fun i _ => notForWant_exec hs i

end Sys2Proof.Machine
end

section
/-!
The trap check on contents that differ in reserved bits only, and on contents with bits of no value.
-/

namespace Sys2Proof.Machine

/-! ## The tests of a layout -/

@[simp] theorem whenClass_true (t : Option Bool) : whenClass true t = t := rfl
@[simp] theorem whenClass_false (t : Option Bool) : whenClass false t = some false := rfl

@[simp] theorem firstTrap_nil : firstTrap [] = some .noTrap := rfl
@[simp] theorem firstTrap_cons_none (v : Verdict) (l : List (Option Bool × Verdict)) :
    firstTrap ((none, v) :: l) = none := rfl
@[simp] theorem firstTrap_cons_true (v : Verdict) (l : List (Option Bool × Verdict)) :
    firstTrap ((some true, v) :: l) = some v := rfl
@[simp] theorem firstTrap_cons_false (v : Verdict) (l : List (Option Bool × Verdict)) :
    firstTrap ((some false, v) :: l) = firstTrap l := rfl

theorem testsOf_layoutA {s : State} (h : s.env.e2h = true) : testsOf s = testsA s := by
  funext c i el st
  simp [testsOf, layoutOf, h]

theorem testsOf_layoutB {s : State} (h : s.env.e2h = false) : testsOf s = testsB s := by
  funext c i el st
  simp [testsOf, layoutOf, h]

/-! ## Which checks the tests answer -/

/-- No earlier rule answers the check, so the tests of the layout in force do (rules R120, R143, R167). -/
def TestsAnswer (i : ClassInputs) (el : EL) (st : ExecState) (s : State) : Prop :=
  (!s.env.el2Enabled || decide (el = .el3)) = false ∧ undefinedTrace s i el = false ∧ undefinedFpId i el st = false ∧
    (isMvfrWrite i st && decide (s.policy.mvfrWrite = .refuse)) = false

theorem cptrEl2Check_of_tests {i : ClassInputs} {el : EL} {st : ExecState} {s : State} (h : TestsAnswer i el st s) :
    cptrEl2Check i el st s =
      (firstTrap (testsOf s (indirectRead s).1 (settleMvfr s i st) el st)).elim (.fault .unknownValue)
        fun v => .next (v, s.withDraws (s.draws + 2)) := by
  obtain ⟨hOn, hTrace, hFpId, hMvfr⟩ := h
  simp only [cptrEl2Check, hOn, hTrace, hFpId, hMvfr, Bool.false_eq_true, if_false]
  cases firstTrap (testsOf s (indirectRead s).1 (settleMvfr s i st) el st) with
  | none => rfl
  | some v => rfl

/-- A check that an earlier rule answers does not look at the storage pair, and changes nothing. -/
theorem cptrEl2Check_of_not_tests {i : ClassInputs} {el : EL} {st : ExecState} {s : State}
    (h : ¬ TestsAnswer i el st s) :
    ∃ r : Result Verdict, ∀ c w, cptrEl2Check i el st (s.withStorage c w) =
      andThen r fun v => .next (v, s.withStorage c w) := by
  cases hOff : !s.env.el2Enabled || decide (el = .el3) with
  | true => exact ⟨.next .noTrap, fun c w => if_pos hOff⟩
  | false =>
  have hOn := Bool.eq_false_iff.1 hOff
  cases hTrace : undefinedTrace s i el with
  | true => exact ⟨.next .higherPriorityUndefined, fun c w => (if_neg hOn).trans (if_pos hTrace)⟩
  | false =>
  have hNoTrace := Bool.eq_false_iff.1 hTrace
  cases hFpId : undefinedFpId i el st with
  | true =>
    exact ⟨.next .higherPriorityUndefined, fun c w => (if_neg hOn).trans ((if_neg hNoTrace).trans (if_pos hFpId))⟩
  | false =>
  have hNoFpId := Bool.eq_false_iff.1 hFpId
  cases hMvfr : isMvfrWrite i st && decide (s.policy.mvfrWrite = .refuse) with
  | true =>
    exact ⟨.refused .constrainedUnpredictable, fun c w =>
      (if_neg hOn).trans ((if_neg hNoTrace).trans ((if_neg hNoFpId).trans (if_pos hMvfr)))⟩
  | false => exact absurd ⟨hOff, hTrace, hFpId, hMvfr⟩ h

/-! ## Reserved bits (rules R25, R32) -/

/-- Two contents that agree on the bits of the named fields of a layout, in value and in holding one. -/
abbrev AgreeOnNamed (p : Params) (l : Layout) (c c' : Content) : Prop :=
  c.bits &&& namedMask p l = c'.bits &&& namedMask p l ∧ c.known &&& namedMask p l = c'.known &&& namedMask p l

section
variable {p : Params} {l : Layout} {c c' : Content} (h : AgreeOnNamed p l c c')
include h

/-- Such contents read alike in every field that is present. -/
theorem AgreeOnNamed.slice? (r : FieldRow) (hr : r ∈ layoutRows p l) (hp : r.present = true) :
    c.slice? r.lo r.width = c'.slice? r.lo r.width :=
  Content.slice?_congr h.1 h.2 r.lo r.width fun _ hLo hHi => namedMask_bit hr hp hLo hHi

theorem AgreeOnNamed.bit? (r : FieldRow) (hr : r ∈ layoutRows p l) (hw : r.width = 1) (hp : r.present = true) :
    c.bit? r.lo = c'.bit? r.lo := by
  rw [Content.bit?, Content.bit?, ← hw, h.slice? r hr hp]

end

section
variable {s : State} {c c' : Content} (i : ClassInputs) (el : EL) (st : ExecState)

/-- No test of layout A reads a bit outside the named fields: a field is read only where it is present. -/
theorem testsA_congr (h : AgreeOnNamed s.params .a c c') : testsA s c i el st = testsA s c' i el st := by
  have hSmen := h.slice? ⟨.smen, 24, 2, s.params.featSME, false⟩ (by simp [layoutRows])
  have hZen := h.slice? ⟨.zen, 16, 2, s.params.featSVE, false⟩ (by simp [layoutRows])
  have hFpen := h.slice? ⟨.fpen, 20, 2, true, false⟩ (by simp [layoutRows]) rfl
  have hTcpac := h.bit? ⟨.tcpac, 31, 1, true, false⟩ (by simp [layoutRows]) rfl rfl
  have hTam := h.bit? ⟨.tam, 30, 1, s.params.featAMUv1, false⟩ (by simp [layoutRows]) rfl
  have hE0poe := h.bit? ⟨.e0poe, 29, 1, s.params.featS1POE, false⟩ (by simp [layoutRows]) rfl
  have hTta := h.bit? ⟨.tta, 28, 1, s.params.traceSysreg, false⟩ (by simp [layoutRows]) rfl
  simp only [testsA, List.cons.injEq, Prod.mk.injEq, and_true]
  refine ⟨whenClass_congr fun hClass => ?_, whenClass_congr fun hClass => ?_, whenClass_congr fun _ => ?_,
    whenClass_congr fun _ => ?_, whenClass_congr fun hClass => ?_, whenClass_congr fun hClass => ?_,
    whenClass_congr fun hClass => ?_⟩
  · rw [hSmen (Bool.and_elim_left hClass)]
  · rw [hZen (Bool.and_elim_left hClass)]
  · rw [hFpen]
  · rw [hTcpac]
  · exact hTam (Bool.and_elim_left (Bool.and_elim_left hClass))
  · rw [hE0poe (Bool.and_elim_left (Bool.and_elim_left (Bool.and_elim_left hClass)))]
  · rw [hTta (Bool.and_elim_left hClass)]

/-- No test of layout B does either. -/
theorem testsB_congr (h : AgreeOnNamed s.params .b c c') : testsB s c i el st = testsB s c' i el st := by
  have hTsm := h.bit? ⟨.tsm, 12, 1, s.params.featSME, true⟩ (by simp [layoutRows]) rfl
  have hTz := h.bit? ⟨.tz, 8, 1, s.params.featSVE, true⟩ (by simp [layoutRows]) rfl
  have hTfp := h.bit? ⟨.tfp, 10, 1, true, false⟩ (by simp [layoutRows]) rfl rfl
  have hTcpac := h.bit? ⟨.tcpac, 31, 1, true, false⟩ (by simp [layoutRows]) rfl rfl
  have hTam := h.bit? ⟨.tam, 30, 1, s.params.featAMUv1, false⟩ (by simp [layoutRows]) rfl
  have hTta := h.bit? ⟨.tta, 20, 1, s.params.traceSysreg, false⟩ (by simp [layoutRows]) rfl
  simp only [testsB, List.cons.injEq, Prod.mk.injEq, and_true]
  refine ⟨whenClass_congr fun hClass => ?_, whenClass_congr fun hClass => ?_, whenClass_congr fun _ => ?_,
    whenClass_congr fun _ => ?_, whenClass_congr fun hClass => ?_, whenClass_congr fun hClass => ?_⟩
  · rw [hTsm (Bool.and_elim_left hClass)]
  · rw [hTz (Bool.and_elim_left hClass)]
  · rw [hTfp]
  · rw [hTcpac]
  · exact hTam (Bool.and_elim_left (Bool.and_elim_left hClass))
  · rw [hTta (Bool.and_elim_left hClass)]

theorem testsOf_congr (h : AgreeOnNamed s.params (layoutOf s.env.e2h) c c') :
    testsOf s c i el st = testsOf s c' i el st := by
  cases hE2h : s.env.e2h with
  | true => rw [testsOf_layoutA hE2h, testsA_congr i el st (by rwa [hE2h] at h)]
  | false => rw [testsOf_layoutB hE2h, testsB_congr i el st (by rwa [hE2h] at h)]

/-- A check at one of two synchronised contents that every test reads alike is the check at the other. -/
theorem cptrEl2Check_withStorage_congr (h : ∀ i', testsOf s c i' el st = testsOf s c' i' el st) :
    cptrEl2Check i el st (s.withStorage c []) =
      andThen (cptrEl2Check i el st (s.withStorage c' [])) fun r => .next (r.1, r.2.withStorage c []) := by
  by_cases hTests : TestsAnswer i el st s
  · rw [cptrEl2Check_of_tests (s := s.withStorage c []) hTests, cptrEl2Check_of_tests (s := s.withStorage c' []) hTests,
      indirectRead_synchronised rfl, indirectRead_synchronised rfl]
    have hSame : testsOf (s.withStorage c []) c (settleMvfr (s.withStorage c []) i st) el st =
        testsOf (s.withStorage c' []) c' (settleMvfr (s.withStorage c' []) i st) el st := h _
    rw [State.withStorage_base, State.withStorage_base, hSame]
    cases firstTrap (testsOf (s.withStorage c' []) c' (settleMvfr (s.withStorage c' []) i st) el st) with
    | none => rfl
    | some v => rfl
  · obtain ⟨r, hr⟩ := cptrEl2Check_of_not_tests hTests
    rw [hr, hr]
    cases r with
    | next v => rfl
    | fault f => rfl
    | refused f => rfl

end

theorem verdict?_andThen_next (r : Result (Verdict × State)) (f : State → State) :
    verdict? (andThen r fun p => .next (p.1, f p.2)) = verdict? r := by
  cases r <;> rfl

theorem andThen_next_eq_fault {α β : Type} (r : Result α) (k : α → β) (f : Fault) :
    (andThen r fun a => .next (k a)) = .fault f ↔ r = .fault f := by
  cases r <;> simp

/-- Settles O60: every test reads the two contents alike, so the two checks differ only in the content they carry
along. -/
theorem reservedBitsTrapNothing : Obligations.ReservedBitsTrapNothing := by
  intro i el st s c c' hBits hKnown
  have hCheck := cptrEl2Check_withStorage_congr (s := s) (c := c) (c' := c') i el st
    fun i' => testsOf_congr i' el st ⟨hBits, hKnown⟩
  rw [hCheck]
  exact ⟨verdict?_andThen_next _ (·.withStorage c []), andThen_next_eq_fault _ _ _⟩

/-! ## Fields of which a bit holds no value (rules R35, R121 (d), R150 (d)) -/

/-- A field of which every content a check may see lacks a bit cannot be read. -/
theorem slice?_of_fieldUnknown {lo width : Nat} {s : State} (h : FieldUnknown lo width s) :
    (indirectRead s).1.slice? lo width = none := by
  obtain ⟨k, hk, hBit⟩ :=
    indirectRead_of_every (P := fun c => ∃ k, k < width ∧ c.known.getLsbD (lo + k) = false) h.1 h.2
  exact Content.slice?_eq_none hk hBit

theorem bit?_of_fieldUnknown {k : Nat} {s : State} (h : FieldUnknown k 1 s) : (indirectRead s).1.bit? k = none := by
  rw [Content.bit?, slice?_of_fieldUnknown h, Option.map_none]

section
variable {s : State} {i : ClassInputs} {el : EL} {st : ExecState}

/-- A check of no AArch32 register of rule R138 is answered by the tests, unless rule R131 answers it. -/
theorem testsAnswer_of_no_fpId (h2 : s.env.el2Enabled = true) (hEl : el ≠ .el3) (hId : i.fpId = none)
    (hTrace : undefinedTrace s i el = false) : TestsAnswer i el st s := by
  simp [TestsAnswer, h2, hEl, hTrace, undefinedFpId, isMvfrWrite, hId]

theorem settleMvfr_of_no_fpId (hId : i.fpId = none) : settleMvfr s i st = i := by
  simp [settleMvfr, isMvfrWrite, hId]

/-- A check faults where the tests give no answer. -/
theorem cptrEl2Check_unknown (h2 : s.env.el2Enabled = true) (hEl : el ≠ .el3) (hId : i.fpId = none)
    (hTrace : undefinedTrace s i el = false) (hTests : firstTrap (testsOf s (indirectRead s).1 i el st) = none) :
    cptrEl2Check i el st s = .fault .unknownValue := by
  rw [cptrEl2Check_of_tests (testsAnswer_of_no_fpId h2 hEl hId hTrace), settleMvfr_of_no_fpId hId, hTests,
    Option.elim_none]

/-- SMEN or TSM is the first field tested. -/
theorem tests_unknown_sme (hField : if s.env.e2h then FieldUnknown 24 2 s else FieldUnknown 12 1 s)
    (hFeat : s.params.featSME = true) (hSme : inSMEclass s i = true) :
    firstTrap (testsOf s (indirectRead s).1 i el st) = none := by
  cases hE2h : s.env.e2h with
  | true =>
    rw [hE2h, if_pos rfl] at hField
    simp [testsOf_layoutA hE2h, testsA, smenTraps, hFeat, hSme, slice?_of_fieldUnknown hField]
  | false =>
    rw [hE2h, if_neg Bool.false_ne_true] at hField
    simp [testsOf_layoutB hE2h, testsB, tsmTraps, hFeat, hSme, bit?_of_fieldUnknown hField]

/-- ZEN or TZ is the first field tested for an instruction outside the class of SME. -/
theorem tests_unknown_sve (hField : if s.env.e2h then FieldUnknown 16 2 s else FieldUnknown 8 1 s)
    (hFeat : s.params.featSVE = true) (hSme : inSMEclass s i = false) (hSve : inSVEclass s i = true) :
    firstTrap (testsOf s (indirectRead s).1 i el st) = none := by
  cases hE2h : s.env.e2h with
  | true =>
    rw [hE2h, if_pos rfl] at hField
    simp [testsOf_layoutA hE2h, testsA, smenTraps, zenTraps, hFeat, hSme, hSve, slice?_of_fieldUnknown hField]
  | false =>
    rw [hE2h, if_neg Bool.false_ne_true] at hField
    simp [testsOf_layoutB hE2h, testsB, tsmTraps, tzTraps, hFeat, hSme, hSve, bit?_of_fieldUnknown hField]

/-- FPEN or TFP is the first field tested for an instruction outside the classes of SME and SVE. -/
theorem tests_unknown_fp (hField : if s.env.e2h then FieldUnknown 20 2 s else FieldUnknown 10 1 s)
    (hSme : inSMEclass s i = false) (hSve : inSVEclass s i = false) (hFp : inFPclass s i = true) :
    firstTrap (testsOf s (indirectRead s).1 i el st) = none := by
  cases hE2h : s.env.e2h with
  | true =>
    rw [hE2h, if_pos rfl] at hField
    simp [testsOf_layoutA hE2h, testsA, smenTraps, zenTraps, fpenTraps, hSme, hSve, hFp, slice?_of_fieldUnknown hField]
  | false =>
    rw [hE2h, if_neg Bool.false_ne_true] at hField
    simp [testsOf_layoutB hE2h, testsB, tsmTraps, tzTraps, tfpTraps, hSme, hSve, hFp, bit?_of_fieldUnknown hField]

/-- An instruction of none of the classes of SME, SVE and floating point meets TCPAC and TAM first, in both layouts. -/
theorem firstTrap_testsOf_of_no_simd (hSme : inSMEclass s i = false) (hSve : inSVEclass s i = false)
    (hFp : inFPclass s i = false) (c : Content) :
    firstTrap (testsOf s c i el st) =
      firstTrap ((tcpacTraps s c i el, .toEL2 (tcpacEc st) none) :: (tamTraps s c i el, .toEL2 (tamEc i.amu) none) ::
        (testsOf s c i el st).drop 5) := by
  cases hE2h : s.env.e2h with
  | true => simp [testsOf_layoutA hE2h, testsA, smenTraps, zenTraps, fpenTraps, hSme, hSve, hFp]
  | false => simp [testsOf_layoutB hE2h, testsB, tsmTraps, tzTraps, tfpTraps, hSme, hSve, hFp]

/-- An instruction of the classes of E0POE and TTA alone, or of none, meets no other field. -/
theorem firstTrap_testsOf_of_e0poe_tta (hSme : inSMEclass s i = false) (hSve : inSVEclass s i = false)
    (hFp : inFPclass s i = false) (hCpacr : i.cpacr = false) (hAmu : i.amu = none) (c : Content) :
    firstTrap (testsOf s c i el st) = firstTrap ((testsOf s c i el st).drop 5) := by
  rw [firstTrap_testsOf_of_no_simd hSme hSve hFp]
  simp [tcpacTraps, tamTraps, hCpacr, hAmu]

/-- TTA is the first field tested for a trace register access. -/
theorem tests_unknown_tta {byCpacr : Bool} (hField : if s.env.e2h then FieldUnknown 28 1 s else FieldUnknown 20 1 s)
    (hFeat : s.params.traceSysreg = true) :
    firstTrap (testsOf s (indirectRead s).1 { trace := true, trappedByCpacrTrace := byCpacr } el st) = none := by
  rw [firstTrap_testsOf_of_e0poe_tta rfl rfl (by simp [inFPclass]) rfl rfl]
  cases hE2h : s.env.e2h with
  | true =>
    rw [hE2h, if_pos rfl] at hField
    simp [testsOf_layoutA hE2h, testsA, e0poeTraps, ttaTrapsA, hFeat, bit?_of_fieldUnknown hField]
  | false =>
    rw [hE2h, if_neg Bool.false_ne_true] at hField
    simp [testsOf_layoutB hE2h, testsB, ttaTrapsB, hFeat, bit?_of_fieldUnknown hField]

/-- A check of no class is answered without a field being read. -/
theorem tests_of_no_class (c : Content) : firstTrap (testsOf s c {} el st) = some .noTrap := by
  rw [firstTrap_testsOf_of_e0poe_tta rfl rfl (by simp [inFPclass]) rfl rfl]
  cases hE2h : s.env.e2h with
  | true => simp [testsOf_layoutA hE2h, testsA, e0poeTraps, ttaTrapsA]
  | false => simp [testsOf_layoutB hE2h, testsB, ttaTrapsB]

end

/-- Settles O57: for each class the tests before its own field look at nothing, and that field cannot be read. -/
theorem checkOfUnknownFieldFaults : Obligations.CheckOfUnknownFieldFaults := by
  intro el st s k byCpacr h2 hEl
  refine ⟨fun hField hFeat => ⟨?_, ?_, fun hStream => ?_⟩, fun hField hFeat => ⟨?_, fun hStream => ?_⟩,
    fun hField => ⟨?_, fun hFeat => ?_⟩, fun hField hEl1 => ?_, fun hField hFeat hEl01 => ?_,
    fun hField hE2h hFeat hEl0 hSt => ?_, fun hField hFeat hNoUndef => ?_, ?_⟩
  · exact cptrEl2Check_unknown h2 hEl rfl rfl (tests_unknown_sme hField hFeat rfl)
  · exact cptrEl2Check_unknown h2 hEl rfl rfl (tests_unknown_sme hField hFeat rfl)
  · refine cptrEl2Check_unknown h2 hEl rfl rfl (tests_unknown_sme hField hFeat ?_)
    rcases hStream with hSve | hStream
    · simp [inSMEclass, hSve]
    · simp [inSMEclass, hStream]
  · exact cptrEl2Check_unknown h2 hEl rfl rfl (tests_unknown_sve hField hFeat rfl rfl)
  · exact cptrEl2Check_unknown h2 hEl rfl rfl
      (tests_unknown_sve hField hFeat (by simp [inSMEclass, hFeat, hStream]) (by simp [inSVEclass, hStream]))
  · exact cptrEl2Check_unknown h2 hEl rfl rfl (tests_unknown_fp hField rfl rfl rfl)
  · exact cptrEl2Check_unknown h2 hEl rfl rfl (tests_unknown_fp hField rfl rfl (by simp [inFPclass, hFeat]))
  · refine cptrEl2Check_unknown h2 hEl rfl rfl ?_
    rw [firstTrap_testsOf_of_no_simd rfl rfl (by simp [inFPclass])]
    simp [tcpacTraps, hEl1, bit?_of_fieldUnknown hField]
  · refine cptrEl2Check_unknown h2 hEl rfl rfl ?_
    rw [firstTrap_testsOf_of_no_simd rfl rfl (by simp [inFPclass])]
    have hLevel : (decide (el = .el0) || decide (el = .el1)) = true := by simpa using hEl01
    simp [tcpacTraps, tamTraps, hFeat, hLevel, bit?_of_fieldUnknown hField]
  · refine cptrEl2Check_unknown h2 hEl rfl rfl ?_
    rw [firstTrap_testsOf_of_e0poe_tta rfl rfl (by simp [inFPclass]) rfl rfl]
    simp [testsOf_layoutA hE2h, testsA, e0poeTraps, hFeat, hEl0, hSt, bit?_of_fieldUnknown hField]
  · exact cptrEl2Check_unknown h2 hEl rfl (by simpa [undefinedTrace] using hNoUndef) (tests_unknown_tta hField hFeat)
  · rw [cptrEl2Check_of_tests (testsAnswer_of_no_fpId h2 hEl rfl rfl), settleMvfr_of_no_fpId rfl, tests_of_no_class]
    rfl

end Sys2Proof.Machine
end

section
/-!
Memory and ordering (`spec/20_memory.md`): what the memories hold after a write, what `SYNC` publishes, what a read gives
after a write by the same name, by the other name, and after `SYNC`, what a check sees while writes are pending, and the
trace region.
-/

namespace Sys2Proof.Machine

/-! ## The two memories -/

/-- Consecutive writes leave at each of their addresses the cell written there. -/
theorem Memory.read_writeList_at {α : Type} (a : Nat) (vs : List α) (m : Memory α) {k : Nat} (hk : k < vs.length) :
    Memory.read (a + k) (Memory.writeList a vs m) = some vs[k] := by
  induction vs generalizing a m k with
  | nil => simp at hk
  | cons v vs ih =>
    rw [Memory.writeList]
    cases k with
    | zero => rw [Memory.read_writeList_other vs _ (.inl (by omega)), Nat.add_zero, Memory.read_write_same,
        List.getElem_cons_zero]
    | succ k => rw [← Nat.add_assoc, Nat.add_right_comm, ih (a + 1) _ (Nat.lt_of_succ_lt_succ hk),
        List.getElem_cons_succ]

/-- A word placed byte by byte is found there. -/
theorem fetchBytes_writeList (a : Nat) (w : BitVec 32) (m : List Host.Cell) :
    fetchBytes a (Memory.writeList a (bytesOfWord w) m) = some (bytesOfWord w) := by
  have hRead (k : Nat) (hk : k < 4) := Memory.read_writeList_at a (bytesOfWord w) m hk
  have hFirst : Memory.read a (Memory.writeList a (bytesOfWord w) m) = _ := hRead 0 (by decide)
  rw [fetchBytes, hFirst, hRead 1 (by decide), hRead 2 (by decide), hRead 3 (by decide)]
  rfl

/-- Settles O7: the bits of a word below 2^32 are placed unchanged, and the bytes placed at the pc are found there. -/
theorem placedWordIsFetched : Obligations.PlacedWordIsFetched := by
  intro s w hw
  rw [State.withFetchWord, Nat.mod_eq_of_lt hw]
  exact fetchBytes_writeList s.pc.toNat (BitVec.ofNat 32 w) s.text

/-- Settles O30: a read sees the last write to its own cell, so it draws nothing, and no write to another. -/
theorem nvmemReadAfterWrite : Obligations.NvmemReadAfterWrite := by
  intro s off other v
  have hSame : Memory.read off (nvWrite off v s).nvmem = some v := Memory.read_write_same off v s.nvmem
  exact ⟨by rw [nvRead, hSame], fun hOther => Memory.read_write_other v s.nvmem hOther⟩

/-! ## What `SYNC` publishes -/

/-- Settles O31: a synchronisation touches the storage pair and the draw counter, and with a write pending it leaves the
last one by some name. -/
theorem syncPublishesALastWrite : Obligations.SyncPublishesALastWrite := by
  intro s hRoom
  refine ⟨(synchronize s).base, (synchronize s).draws, ?_, fun hNone => ?_, fun hSome => ?_⟩
  · rw [exec_sync, complete_of_room (by simpa using hRoom), synchronize_pc, ← synchronize_frame]
  · rw [synchronize_of_no_pending hNone]
  · obtain ⟨c, n, hLast, hSync⟩ := synchronize_of_pending hSome
    exact ⟨n, by rw [hSync]; exact hLast⟩

/-! ## A write followed by a read (rules R67, R68) -/

@[simp] theorem Content.full_ofWord (v : Word) : (Content.ofWord v).full = true := by
  simp [Content.full, Content.ofWord]

/-- Where FEAT_SRMASK is not implemented no field is read-only (rule R36). -/
theorem readOnlyMask_of_no_srmask {s : State} (h : s.params.featSRMASK = false) : readOnlyMask s = 0#64 := by
  simp [readOnlyMask, maskingApplies, h]

/-- The state after an MSR has written the whole of `v` by a name. -/
def afterWrite (n : AccessorName) (v : Word) (s : State) : State :=
  ((s.withStorage s.base (s.pending ++ [⟨n, Content.ofWord v⟩])).withDraws (s.draws + 1)).withPc (s.pc + 4#64)

/-- The state after a `SYNC` that has published `c`. -/
def afterSync (c : Content) (d : Nat) (s : State) : State :=
  ((s.withStorage c []).withDraws d).withPc (s.pc + 4#64)

/-- Where FEAT_SRMASK is not implemented an admitted write makes the whole of its value pending. -/
theorem exec_msrBy_of_no_srmask {n : AccessorName} {t : Nat} {s : State} {v : Word} (hReaches : ReachesStorage n s)
    (hAdmitted : WriteAdmitted v s) (hMask : s.params.featSRMASK = false) (hv : readX t s = .next v)
    (hRoom : PcHasRoom s) : exec (msrBy n t) s = .next (afterWrite n v s) := by
  obtain ⟨hPresent, hMasking, hReserved⟩ := hAdmitted
  have hWrite : writeCptr n v s = .next (directWrite n v s) :=
    writeCptr_eq_next.2 (.inr ⟨hPresent, hMasking, hReserved, rfl⟩)
  rw [exec_msrBy_of_reaches hReaches hv, hWrite, andThen_next, directWrite_eq, readOnlyMask_of_no_srmask hMask,
    Content.merge_none]
  exact complete_of_room hRoom

/-- Where every content a direct read may give is full, an MRS completes and leaves one of them in its register. -/
theorem exec_mrsBy_of_full_candidates {n : AccessorName} {u : Nat} {s : State} (hReaches : ReachesStorage n s)
    (hPresent : res0FromEL3 s = false) (hFull : ∀ c, DirectCandidate n s c → c.full = true) (hRoom : PcHasRoom s)
    (hu : u < 31) :
    ∃ s' c, DirectCandidate n s c ∧ exec (mrsBy n u) s = .next s' ∧ readX u s' = .next c.bits := by
  have hCandidate := directCandidate_directRead n s
  have hRead : readCptr n s = .next ((directRead n s).1.bits, s.withDraws (s.draws + 1)) :=
    readCptr_eq_next.2 (.inr ⟨hPresent, hFull _ hCandidate, rfl, rfl⟩)
  refine ⟨(writeX u (directRead n s).1.bits (s.withDraws (s.draws + 1))).withPc (s.pc + 4#64), (directRead n s).1,
    hCandidate, ?_, ?_⟩
  · rw [exec_mrsBy_of_reaches hReaches, hRead, andThen_next, complete_of_room (by simpa using hRoom),
      writeX_pc, State.withDraws_pc]
  · rw [readX_withPc, readX_writeX_same, if_pos hu]

/-- Of the room for several instructions one takes 4. -/
theorem room_after_one {pc : Word} {k : Nat} (h : pc.toNat + (4 + k) < 2 ^ 64) : (pc + 4#64).toNat + k < 2 ^ 64 := by
  rwa [BitVec.toNat_add_of_lt (show pc.toNat + (4#64).toNat < 2 ^ 64 from by simp; omega), Nat.add_assoc]

section
variable {n : AccessorName} {v : Word} {s : State} {c : Content}

/-- With no write by the other name pending, every write pending after a write by a name is by that name. -/
theorem name_of_mem_afterWrite (hNames : ∀ e ∈ s.pending, e.name = n) :
    ∀ e ∈ (afterWrite n v s).pending, e.name = n := by
  intro e he
  rcases List.mem_append.1 he with he | he
  · exact hNames e he
  · rw [List.mem_singleton.1 he]

/-- After a write by a name, with no write by the other name pending, a read by that name has one candidate. -/
theorem directCandidate_afterWrite_same (hNames : ∀ e ∈ s.pending, e.name = n)
    (h : DirectCandidate n (afterWrite n v s) c) : c = Content.ofWord v := by
  rcases h with rfl | ⟨e, he, hOther, -⟩
  · exact congrArg (·.getD s.base) (lastNamed_append_same n s.pending (Content.ofWord v))
  · exact absurd (name_of_mem_afterWrite hNames e he) hOther

/-- After a write by a name to a synchronised storage, a read by the other name has two candidates. -/
theorem directCandidate_afterWrite_other {m : AccessorName} (hOther : n ≠ m) (hNone : s.pending = [])
    (h : DirectCandidate m (afterWrite n v s) c) : c = Content.ofWord v ∨ c = s.base := by
  have hPending : (afterWrite n v s).pending = [⟨n, Content.ofWord v⟩] := by simp [afterWrite, hNone]
  rcases h with rfl | ⟨e, he, -, rfl⟩
  · right
    rw [ownContent, hPending]
    simp [lastNamed, hOther, afterWrite]
  · rw [hPending, List.mem_singleton] at he
    exact .inl (by rw [he])

/-- After a write by a name, with no write by the other name pending, that write is the last by any name that has one. -/
theorem lastNamed_afterWrite {m : AccessorName} (hNames : ∀ e ∈ s.pending, e.name = n)
    (h : lastNamed m (afterWrite n v s).pending = some c) : c = Content.ofWord v := by
  obtain ⟨e, he, hName, -⟩ := lastNamed_mem h
  obtain rfl : n = m := (name_of_mem_afterWrite hNames e he).symm.trans hName
  exact Option.some.inj (h.symm.trans (lastNamed_append_same n s.pending (Content.ofWord v)))

/-- `SYNC` after a write by a name, with no write by the other name pending before, publishes that write. -/
theorem exec_sync_afterWrite (hNames : ∀ e ∈ s.pending, e.name = n) (hRoom : PcHasRoom (afterWrite n v s)) :
    ∃ d, exec .sync (afterWrite n v s) = .next (afterSync (.ofWord v) d (afterWrite n v s)) := by
  obtain ⟨c, d, hSync, -, hLast⟩ := syncPublishesALastWrite (afterWrite n v s) hRoom
  obtain ⟨m, hLast⟩ := hLast (by simp [afterWrite])
  obtain rfl := lastNamed_afterWrite hNames hLast
  exact ⟨d, hSync⟩

/-- In a synchronised storage a read by either name has one candidate. -/
theorem directCandidate_synchronised (hNone : s.pending = []) (h : DirectCandidate n s c) : c = s.base := by
  rcases h with rfl | ⟨e, he, -⟩
  · simp [ownContent, hNone, lastNamed]
  · simp [hNone] at he

end

/-- Settles O32: the write is the one content that a read by its name may give. -/
theorem sameNameReadSeesTheWrite : Obligations.SameNameReadSeesTheWrite := by
  intro n t u s v hReaches hAdmitted hMask hv hu hRoom hNames
  have hOnly (c : Content) := directCandidate_afterWrite_same (v := v) (c := c) hNames
  have hFull (c : Content) (hc : DirectCandidate n (afterWrite n v s) c) : c.full = true := by
    rw [hOnly c hc, Content.full_ofWord]
  obtain ⟨s2, c, hCandidate, hRead, hReg⟩ :=
    exec_mrsBy_of_full_candidates (s := afterWrite n v s) hReaches hAdmitted.1 hFull (room_after_one hRoom) hu
  rw [hOnly c hCandidate] at hReg
  exact ⟨_, s2, exec_msrBy_of_no_srmask hReaches hAdmitted hMask hv (by omega), hRead, hReg⟩

/-- Settles O33: the write and `base` are the contents that a read by the other name may give. -/
theorem crossNameReadSeesOldOrNew : Obligations.CrossNameReadSeesOldOrNew := by
  intro n m t u s v hOther hReaches hReachesM hAdmitted hMask hv hu hRoom ⟨hNone, hBase⟩
  have hTwo (c : Content) := directCandidate_afterWrite_other (v := v) (c := c) hOther hNone
  have hFull (c : Content) (hc : DirectCandidate m (afterWrite n v s) c) : c.full = true := by
    rcases hTwo c hc with rfl | rfl
    · exact Content.full_ofWord v
    · exact hBase
  obtain ⟨s2, c, hCandidate, hRead, hReg⟩ :=
    exec_mrsBy_of_full_candidates (s := afterWrite n v s) hReachesM hAdmitted.1 hFull (room_after_one hRoom) hu
  refine ⟨_, s2, exec_msrBy_of_no_srmask hReaches hAdmitted hMask hv (by omega), hRead, ?_⟩
  rcases hTwo c hCandidate with rfl | rfl
  · exact .inl hReg
  · exact .inr hReg

/-- Settles O34: `SYNC` publishes the last write by some name, which is this one, and leaves a read no other content. -/
theorem synchronisedReadSeesTheWrite : Obligations.SynchronisedReadSeesTheWrite := by
  intro n m t u s v hReaches hReachesM hAdmitted hMask hv hu hRoom hNames
  have hRoom1 := room_after_one (k := 8) hRoom
  obtain ⟨d, hSync⟩ := exec_sync_afterWrite (v := v) hNames (show (s.pc + 4#64).toNat + 4 < 2 ^ 64 by omega)
  have hOnly (c : Content) := directCandidate_synchronised (n := m) (s := afterSync (.ofWord v) d (afterWrite n v s))
    (c := c) rfl
  have hFull (c : Content) (hc : DirectCandidate m (afterSync (.ofWord v) d (afterWrite n v s)) c) : c.full = true := by
    rw [hOnly c hc]
    exact Content.full_ofWord v
  obtain ⟨s3, c, hCandidate, hRead, hReg⟩ :=
    exec_mrsBy_of_full_candidates (s := afterSync (.ofWord v) d (afterWrite n v s)) hReachesM hAdmitted.1 hFull
      (room_after_one hRoom1) hu
  rw [hOnly c hCandidate] at hReg
  exact ⟨_, _, s3, exec_msrBy_of_no_srmask hReaches hAdmitted hMask hv (by omega), hSync, hRead, hReg⟩

/-! ## Checks while writes are pending (rules R70, R207) -/

theorem indirectCandidate_indirectRead (s : State) : IndirectCandidate s (indirectRead s).1 :=
  (choose_mem s.draws s.base _).imp_right fun h => List.mem_map.1 h

/-- A check is the check at a storage synchronised at what its indirect read gives. -/
theorem cptrEl2Check_eq_synchronised (i : ClassInputs) (el : EL) (st : ExecState) (s : State) :
    cptrEl2Check i el st s = andThen (cptrEl2Check i el st (s.withStorage (indirectRead s).1 []))
      fun r => .next (r.1, r.2.withStorage s.base s.pending) := by
  by_cases hTests : TestsAnswer i el st s
  · have hSynced : TestsAnswer i el st (s.withStorage (indirectRead s).1 []) := hTests
    have hSame : testsOf (s.withStorage (indirectRead s).1 []) (indirectRead s).1
        (settleMvfr (s.withStorage (indirectRead s).1 []) i st) el st =
      testsOf s (indirectRead s).1 (settleMvfr s i st) el st := rfl
    rw [cptrEl2Check_of_tests hTests, cptrEl2Check_of_tests hSynced,
      indirectRead_synchronised (State.withStorage_pending s _ []), State.withStorage_base, hSame]
    cases firstTrap (testsOf s (indirectRead s).1 (settleMvfr s i st) el st) with
    | none => rfl
    | some v => rfl
  · obtain ⟨r, hr⟩ := cptrEl2Check_of_not_tests hTests
    refine (hr s.base s.pending).trans ?_
    rw [hr]
    cases r with
    | next v => rfl
    | fault f => rfl
    | refused f => rfl

/-- Settles O59: what the indirect read gives is the content. -/
theorem checkUsesAnAdmittedContent : Obligations.CheckUsesAnAdmittedContent := by
  intro i el st s
  refine ⟨(indirectRead s).1, indirectCandidate_indirectRead s, ?_⟩
  rw [cptrEl2Check_eq_synchronised]
  exact ⟨verdict?_andThen_next _ (·.withStorage s.base s.pending), andThen_next_eq_fault _ _⟩

/-! ## The trace region (rule R62) -/

theorem inTraceRegion64_iff (op0 : BitVec 2) (op1 : BitVec 3) (crn : BitVec 4) :
    inTraceRegion64 op0 op1 crn = true ↔ op0 = 2#2 ∧ op1 = 1#3 ∧ crn.toNat < 8 := by
  simp [inTraceRegion64, BitVec.ult, and_assoc]

theorem inTraceRegion32_iff (cpnum : BitVec 4) (opc1 : BitVec 3) (crn : BitVec 4) :
    inTraceRegion32 cpnum opc1 crn = true ↔ cpnum = 14#4 ∧ opc1 = 1#3 ∧ crn.toNat < 8 := by
  simp [inTraceRegion32, BitVec.ult, and_assoc]

/-- An instruction of no class meets no test, whether CPACR_EL1 traps it or not. -/
theorem firstTrap_testsOf_of_no_class (s : State) (c : Content) (byCpacr : Bool) (el : EL) (st : ExecState) :
    firstTrap (testsOf s c { trappedByCpacrTrace := byCpacr } el st) = some .noTrap := by
  rw [firstTrap_testsOf_of_e0poe_tta rfl rfl (by simp [inFPclass]) rfl rfl]
  cases hE2h : s.env.e2h with
  | true => simp [testsOf_layoutA hE2h, testsA, e0poeTraps, ttaTrapsA]
  | false => simp [testsOf_layoutB hE2h, testsB, ttaTrapsB]

theorem verdict?_cptrEl2Check_of_no_class (byCpacr : Bool) (el : EL) (st : ExecState) (s : State) :
    verdict? (cptrEl2Check { trappedByCpacrTrace := byCpacr } el st s) = some .noTrap := by
  cases hOff : !s.env.el2Enabled || decide (el = .el3) with
  | true => rw [cptrEl2Check, if_pos hOff, verdict?]
  | false =>
    rw [cptrEl2Check_of_tests ⟨hOff, rfl, rfl, by simp [isMvfrWrite]⟩, settleMvfr_of_no_fpId rfl,
      firstTrap_testsOf_of_no_class, Option.elim_some, verdict?]

theorem verdict?_checkHere_of_no_class {i : CheckedInstr} {s : State} (hState : unreachable s = false) {byCpacr : Bool}
    (hClass : classify i s.env.el s.env.trappedByCpacrTrace = { trappedByCpacrTrace := byCpacr }) :
    verdict? (checkHere i s) = some .noTrap := by
  rw [checkHere, if_neg (Bool.eq_false_iff.1 hState), hClass, verdict?_cptrEl2Check_of_no_class]

/-- Settles O55: outside the region, or to no implemented register, an access is of no class. -/
theorem traceRegionIsNecessary : Obligations.TraceRegionIsNecessary := by
  intro op0 op1 crn cp implemented s hState
  refine ⟨verdict?_checkHere_of_no_class hState (byCpacr := false) rfl, fun hOut => ?_, fun hOut => ?_⟩
  · have hTrace : (inTraceRegion64 op0 op1 crn && implemented) = false := by
      rwa [Bool.eq_false_iff, ne_eq, Bool.and_eq_true, inTraceRegion64_iff, and_assoc, and_assoc]
    exact verdict?_checkHere_of_no_class hState (by rw [classify, hTrace])
  · have hTrace : (inTraceRegion32 cp op1 crn && implemented) = false := by
      rwa [Bool.eq_false_iff, ne_eq, Bool.and_eq_true, inTraceRegion32_iff, and_assoc, and_assoc]
    exact verdict?_checkHere_of_no_class hState (by rw [classify, hTrace])

end Sys2Proof.Machine
end

section
/-!
The encoding (`spec/30_encoding.md`): at each of its levels (byte string, word, System accessor) the decoder answers an
instruction exactly where the encoder gives that input. Then program text that encodes nothing, and the name that needs
FEAT_VHE.
-/

namespace Sys2Proof.Machine

/-! ## The fields of a word (rule R81) -/

/-- A slice is two values put together exactly where its two parts are these values. -/
theorem extractLsb'_eq_append_iff (n m : Nat) {k lo : Nat} {w : BitVec k} {x : BitVec n} {y : BitVec m} :
    w.extractLsb' lo (n + m) = x ++ y ↔ w.extractLsb' (lo + m) n = x ∧ w.extractLsb' lo m = y := by
  rw [← BitVec.extractLsb'_append_extractLsb'_eq_extractLsb' rfl]
  constructor
  · intro h
    have hHigh := congrArg (BitVec.extractLsb' m n) h
    have hLow := congrArg (BitVec.extractLsb' 0 m) h
    rw [BitVec.extractLsb'_append_eq_left, BitVec.extractLsb'_append_eq_left] at hHigh
    rw [BitVec.extractLsb'_append_eq_right, BitVec.extractLsb'_append_eq_right] at hLow
    exact ⟨hHigh, hLow⟩
  · rintro ⟨rfl, rfl⟩
    rfl

theorem eq_wordOfBytes_iff {w : BitVec 32} {b0 b1 b2 b3 : Byte} :
    w = wordOfBytes b0 b1 b2 b3 ↔ bytesOfWord w = [b0, b1, b2, b3] := by
  conv_lhs => rw [← BitVec.extractLsb'_eq_self (x := w), wordOfBytes, extractLsb'_eq_append_iff 24 8,
    extractLsb'_eq_append_iff 16 8, extractLsb'_eq_append_iff 8 8]
  simp only [bytesOfWord, List.cons.injEq, and_true]
  tauto

theorem eq_toWord_iff {w : BitVec 32} {a : Accessor} :
    w = a.toWord ↔ w.extractLsb' 22 10 = 0b1101010100#10 ∧ w.extractLsb' 21 1 = BitVec.ofBool a.read ∧
      w.extractLsb' 20 1 = 1#1 ∧ w.extractLsb' 19 1 = a.op0.extractLsb' 0 1 ∧ w.extractLsb' 16 3 = a.op1 ∧
      w.extractLsb' 12 4 = a.crn ∧ w.extractLsb' 8 4 = a.crm ∧ w.extractLsb' 5 3 = a.op2 ∧ w.extractLsb' 0 5 = a.t := by
  conv_lhs => rw [← BitVec.extractLsb'_eq_self (x := w), Accessor.toWord, extractLsb'_eq_append_iff 27 5,
    extractLsb'_eq_append_iff 24 3, extractLsb'_eq_append_iff 20 4, extractLsb'_eq_append_iff 16 4,
    extractLsb'_eq_append_iff 13 3, extractLsb'_eq_append_iff 12 1, extractLsb'_eq_append_iff 11 1,
    extractLsb'_eq_append_iff 10 1]
  simp only [and_assoc]

/-! ## Words and System accessors (rules R80, R81) -/

/-- `L` in the word and as a direction. -/
theorem decide_eq_one_iff (b : BitVec 1) (read : Bool) : decide (b = 1#1) = read ↔ b = BitVec.ofBool read := by
  decide +revert

/-- Bit 1 of `op0` has no place in the word: it is one in every MRS and MSR (register). -/
theorem one_append_eq_iff (b : BitVec 1) (op0 : BitVec 2) :
    1#1 ++ b = op0 ↔ op0.getLsbD 1 = true ∧ b = op0.extractLsb' 0 1 := by
  decide +revert

/-- A word has the fields of an accessor exactly where it is assembled from them. -/
theorem ofWord?_eq_some_iff {w : BitVec 32} {a : Accessor} :
    Accessor.ofWord? w = some a ↔ a.op0.getLsbD 1 = true ∧ w = a.toWord := by
  obtain ⟨read, op0, op1, crn, crm, op2, t⟩ := a
  simp only [Accessor.ofWord?, Option.ite_none_right_eq_some, Option.some.injEq, Accessor.mk.injEq, decide_eq_one_iff,
    one_append_eq_iff, eq_toWord_iff]
  tauto

/-! ## System accessors and instructions (rules R61, R82, R84 to R87) -/

/-- An accessor is one of the four exactly where it is the tuple of that instruction, the register number in range. -/
theorem toInstr?_eq_some_iff {a : Accessor} {i : Instr} :
    a.toInstr? = some i ↔ i.WellFormed ∧ i.accessor? = some a := by
  constructor
  · obtain ⟨read, op0, op1, crn, crm, op2, t⟩ := a
    have hNumber : t.toNat ≤ 31 := Nat.le_of_lt_succ t.isLt
    intro h
    rw [Accessor.toInstr?] at h
    split at h
    · next hPoint =>
      obtain ⟨rfl, rfl, rfl, rfl, rfl⟩ := hPoint
      cases read <;> cases h <;> simp [Instr.WellFormed, Instr.wellFormed, Instr.accessor?, hNumber]
    · split at h
      · next hPoint =>
        obtain ⟨rfl, rfl, rfl, rfl, rfl⟩ := hPoint
        cases read <;> cases h <;> simp [Instr.WellFormed, Instr.wellFormed, Instr.accessor?, hNumber]
      · cases h
  · rintro ⟨hWf, hAccessor⟩
    have hNumber (t : Nat) (ht : decide (t ≤ 31) = true) : (BitVec.ofNat 5 t).toNat = t := by
      rw [BitVec.toNat_ofNat, Nat.mod_eq_of_lt (Nat.lt_succ_of_le (of_decide_eq_true ht))]
    cases i with
    | mrsCptrEl2 t => cases hAccessor; simp [Accessor.toInstr?, hNumber t hWf]
    | msrCptrEl2 t => cases hAccessor; simp [Accessor.toInstr?, hNumber t hWf]
    | mrsCpacrEl1 t => cases hAccessor; simp [Accessor.toInstr?, hNumber t hWf]
    | msrCpacrEl1 t => cases hAccessor; simp [Accessor.toInstr?, hNumber t hWf]
    | sync => cases hAccessor

theorem op0_of_accessor? {i : Instr} {a : Accessor} (h : i.accessor? = some a) : a.op0.getLsbD 1 = true := by
  cases i <;> cases h <;> simp

theorem eq_sync_of_accessor? {i : Instr} (h : i.accessor? = none) : i = .sync := by
  cases i <;> cases h
  rfl

/-! ## Decoding and encoding -/

theorem encodeWord_of_accessor? {i : Instr} {a : Accessor} (h : i.accessor? = some a) : encodeWord i = a.toWord := by
  rw [encodeWord, h]

/-- The word of `SYNC` is no MRS or MSR (register), so the test for it hides no accessor. -/
theorem ofWord?_syncWord : Accessor.ofWord? syncWord = none := by decide

/-- A word decodes to an instruction exactly where it is the word of that instruction, which is well formed. -/
theorem decodeWord_eq_ok_iff {w : BitVec 32} {i : Instr} :
    decodeWord w = .ok i ↔ i.WellFormed ∧ encodeWord i = w := by
  constructor
  · intro h
    rw [decodeWord] at h
    split at h
    · next hSync => cases h; exact ⟨rfl, hSync.symm⟩
    · split at h
      · cases h
      · next a hFields =>
        split at h
        · cases h
        · next hInstr =>
          cases h
          obtain ⟨hWf, hAccessor⟩ := toInstr?_eq_some_iff.1 hInstr
          exact ⟨hWf, (encodeWord_of_accessor? hAccessor).trans (ofWord?_eq_some_iff.1 hFields).2.symm⟩
  · rintro ⟨hWf, rfl⟩
    cases hAccessor : i.accessor? with
    | none => rw [eq_sync_of_accessor? hAccessor]; rfl
    | some a =>
      have hFields : Accessor.ofWord? (encodeWord i) = some a :=
        ofWord?_eq_some_iff.2 ⟨op0_of_accessor? hAccessor, encodeWord_of_accessor? hAccessor⟩
      have hInstr : a.toInstr? = some i := toInstr?_eq_some_iff.2 ⟨hWf, hAccessor⟩
      have hNotSync : encodeWord i ≠ syncWord := fun h => by
        rw [h, ofWord?_syncWord] at hFields
        cases hFields
      simp only [decodeWord, if_neg hNotSync, hFields, hInstr]

/-- A byte string decodes to an instruction and what follows it exactly where it is the instruction's bytes, then these. -/
theorem decode_eq_ok_iff {bs rest : List Byte} {i : Instr} :
    decode bs = .ok (i, rest) ↔ i.WellFormed ∧ encode i ++ rest = bs := by
  constructor
  · intro h
    unfold decode at h
    split at h
    · split at h
      · next hWord =>
        cases h
        obtain ⟨hWf, hEncode⟩ := decodeWord_eq_ok_iff.1 hWord
        exact ⟨hWf, by rw [encode, eq_wordOfBytes_iff.1 hEncode]; rfl⟩
      · cases h
    · cases h
  · rintro ⟨hWf, rfl⟩
    have hWord := decodeWord_eq_ok_iff.2 ⟨hWf, eq_wordOfBytes_iff.2 rfl⟩
    simp only [encode, bytesOfWord, List.cons_append, List.nil_append, decode, hWord]

/-- Settles O2: the instruction's bytes, then `rest`, are what decodes to it and `rest`. -/
theorem decodeOfEncode : Obligations.DecodeOfEncode := fun _ hWf _ => decode_eq_ok_iff.2 ⟨hWf, rfl⟩

/-- Settles O3: only the word of an instruction decodes to it. -/
theorem decodedWordIsTheEncoding : Obligations.DecodedWordIsTheEncoding := fun _ _ => decodeWord_eq_ok_iff.1

/-! ## Program text that encodes nothing (rule R90) -/

theorem length_of_fetchBytes {a : Nat} {m : List Host.Cell} {bs : List Byte} (h : fetchBytes a m = some bs) :
    bs.length = 4 := by
  unfold fetchBytes at h
  split at h
  · cases h; rfl
  · cases h

/-- Settles O4: were the four bytes to decode, they would be the bytes of an instruction, with nothing after them. -/
theorem otherWordsAreNotInScope : Obligations.OtherWordsAreNotInScope := by
  intro s bs ⟨hReachable, hAligned⟩ hBytes hOther
  cases hDecode : decode bs with
  | error e =>
    have hFetch : fetchInstr s = .refused .notInScope := by simp [fetchInstr, hReachable, hAligned, hBytes, hDecode]
    rw [step, hFetch, andThen_refused]
  | ok p =>
    obtain ⟨hWf, hEncode⟩ := decode_eq_ok_iff.1 hDecode
    have hRest : p.2 = [] := by
      have hLength := congrArg List.length hEncode
      rw [length_of_fetchBytes hBytes, List.length_append, encode, bytesOfWord] at hLength
      exact List.eq_nil_of_length_eq_zero (by simpa using hLength)
    rw [hRest, List.append_nil] at hEncode
    exact absurd hEncode (hOther p.1 hWf)

/-- Settles O1: each word decodes by the places of its fields. -/
theorem knownWordsDecode : Obligations.KnownWordsDecode := ⟨rfl, rfl, rfl, rfl, rfl, rfl, rfl, rfl, rfl, rfl⟩

/-! ## The name that needs FEAT_VHE (rule R88) -/

theorem routeCpacrEl1_of_no_vhe {s : State} (h : s.params.featVHE = false) (fgtBit : Bool) :
    routeCpacrEl1 fgtBit s = .refused .notInSource := by
  simp [routeCpacrEl1, h]

/-- Settles O11: the route is refused, which ends either direction. -/
theorem cpacrNameNeedsVHE : Obligations.CpacrNameNeedsVHE := by
  intro s t hVHE
  rw [exec_mrsCpacrEl1, exec_msrCpacrEl1, routeCpacrEl1_of_no_vhe hVHE, routeCpacrEl1_of_no_vhe hVHE]
  exact ⟨rfl, rfl⟩

end Sys2Proof.Machine
end

section
/-!
The permission tests of the accessors in their order (`spec/40_sysreg_access.md`): EL3's control, TCPAC and the
fine-grained trap; what the accessors by the name CPACR_EL1 do where no test stops them, and the frame of the MSR.
-/

namespace Sys2Proof.Machine

/-! ## An access that a test stops -/

@[simp] theorem mrsFrom_fault (t : Nat) (f : Fault) : mrsFrom t (.fault f) = .fault f := rfl
@[simp] theorem msrTo_fault (t : Nat) (f : Fault) : msrTo t (.fault f) = .fault f := rfl

/-- A fault of the arms ends both accessors by the name. -/
theorem exec_of_routeBy_fault {n : AccessorName} {s : State} {f : Fault} (h : ∀ b, routeBy n b s = .fault f) (t : Nat) :
    exec (mrsBy n t) s = .fault f ∧ exec (msrBy n t) s = .fault f := by
  rw [exec_mrsBy, exec_msrBy, h, h]
  exact ⟨mrsFrom_fault t f, msrTo_fault t f⟩

/-! ## EL3's control (rule R106) -/

/-- The stop of EL3's control: Undefined by the predicate in force, else a trap to EL3. -/
def el3Stop (undef : Bool) : Fault := if undef then .undefined else .trap .el3 0x18 none

theorem fault_el3Stop {α : Type} (undef : Bool) :
    (.fault (el3Stop undef) : Result α) = if undef then .fault .undefined else .fault (.trap .el3 0x18 none) :=
  apply_ite Host.Outcome.fault _ _ _

/-- EL3's first test stops an access ahead of every trap. -/
abbrev EL3StopsFirst (s : State) : Prop :=
  s.params.haveEL3 = true ∧ s.env.el3SDDUndefPriority = true ∧ s.env.cptrEl3Tcpac = true

theorem el3Priority_of_stopsFirst {α : Type} {s : State} (h : EL3StopsFirst s) (k : Result α) :
    el3Priority s k = .fault .undefined := by
  obtain ⟨hEL3, hPriority, hTcpac⟩ := h
  simp [el3Priority, hEL3, hPriority, hTcpac, raiseUndefined]

theorem el3Priority_of_not_stopsFirst {α : Type} {s : State} (h : ¬ EL3StopsFirst s) (k : Result α) :
    el3Priority s k = k :=
  if_neg (by simpa [and_assoc] using h)

theorem el3Trap_of_forbids {α : Type} {s : State} (h : EL3Forbids s) (k : Result α) :
    el3Trap s k = .fault (el3Stop s.env.el3SDDUndef) := by
  rw [el3Trap, if_pos ((el3Forbids_iff s).1 h), fault_el3Stop]
  rfl

theorem el3Trap_of_not_forbids {α : Type} {s : State} (h : ¬ EL3Forbids s) (k : Result α) : el3Trap s k = k :=
  if_neg (mt (el3Forbids_iff s).2 h)

/-- Where EL3 forbids the access, its two tests in a row give the stop of either predicate. -/
theorem el3Gates_of_forbids {α : Type} {s : State} (h : EL3Forbids s) (k : Result α) :
    el3Priority s (el3Trap s k) = .fault (el3Stop (s.env.el3SDDUndefPriority || s.env.el3SDDUndef)) := by
  cases hPriority : s.env.el3SDDUndefPriority with
  | true => exact el3Priority_of_stopsFirst ⟨h.1, hPriority, h.2⟩ _
  | false => rw [el3Priority_of_not_stopsFirst (by simp [hPriority]), el3Trap_of_forbids h, Bool.false_or]

/-- At EL2 EL3's control stops every accessor (rules R100 to R103). -/
theorem routeBy_of_el2_forbidden {n : AccessorName} {s : State} (hAA64 : s.params.featAA64 = true) (hEl : s.env.el = .el2)
    (hVHE : n = .cpacrEl1 → s.params.featVHE = true) (hForbids : EL3Forbids s) (fgtBit : Bool) :
    routeBy n fgtBit s = .fault (el3Stop (s.env.el3SDDUndefPriority || s.env.el3SDDUndef)) := by
  cases n with
  | cptrEl2 => simp [routeBy, routeCptrEl2, hAA64, hEl, el3Gates_of_forbids hForbids]
  | cpacrEl1 => simp [routeBy, routeCpacrEl1, hVHE rfl, hAA64, hEl, el3Gates_of_forbids hForbids]

/-! ## TCPAC and the fine-grained trap (rules R102, R103, R188) -/

/-- What every content reads in a bit, a trap check reads there. -/
theorem bit?_indirectRead {k : Nat} {b : Option Bool} {s : State} (h : EveryContent (fun c => c.bit? k = b) s) :
    (indirectRead s).1.bit? k = b :=
  indirectRead_of_every (P := fun c => c.bit? k = b) h.1 h.2

section
variable {s : State} (h2 : s.env.el2Enabled = true)
include h2

theorem tcpacGate_of_one (h : EveryContent (fun c => c.bit? 31 = some true) s) :
    tcpacGate s = .fault (.trap .el2 0x18 none) := by
  rw [tcpacGate, if_pos h2, bit?_indirectRead h]
  rfl

theorem tcpacGate_of_unknown (h : EveryContent (fun c => c.bit? 31 = none) s) :
    tcpacGate s = .fault .unknownValue := by
  rw [tcpacGate, if_pos h2, bit?_indirectRead h]

end

/-- Where TCPAC is zero the test costs a draw at most, and none where EL2 is not enabled. -/
theorem tcpacGate_of_zero {s : State} (h : s.env.el2Enabled = true → EveryContent (fun c => c.bit? 31 = some false) s) :
    ∃ d, (s.env.el2Enabled = false → d = s.draws) ∧ tcpacGate s = .next (s.withDraws d) := by
  cases h2 : s.env.el2Enabled with
  | false => exact ⟨s.draws, fun _ => rfl, tcpacGate_of_el2_off h2⟩
  | true => exact ⟨s.draws + 1, nofun, tcpacGate_eq_next.2 (.inr ⟨h2, bit?_indirectRead (h h2), rfl⟩)⟩

theorem fgtGate_of_not_applies {α : Type} {fgtBit : Bool} {s : State} (h : ¬ FineGrainedTrapApplies fgtBit s)
    (k : Result α) : fgtGate fgtBit s k = k :=
  if_neg (by simpa [and_assoc] using h)

/-! ## The arms by the name CPACR_EL1 -/

/-- What a guest's access by the name CPACR_EL1 reaches (rule R187). -/
def guestTarget (s : State) : Target := if s.env.nvx = 0b111#3 then .nvmem else .cpacrEl1

section
variable {s : State} (hVHE : s.params.featVHE = true) (hAA64 : s.params.featAA64 = true) (hEl : s.env.el = .el1)
include hVHE hAA64 hEl

theorem routeCpacrEl1_of_el1 (fgtBit : Bool) :
    routeCpacrEl1 fgtBit s = el3Priority s (andThen (tcpacGate s) fun s1 =>
      fgtGate fgtBit s1 (el3Trap s1 (.next (guestTarget s1, s1)))) := by
  simp only [routeCpacrEl1, hVHE, hAA64, hEl, Bool.not_true, Bool.false_eq_true, if_false, guestTarget]

/-- A fault of the TCPAC test ends the access where EL3's first test lets it through. -/
theorem routeCpacrEl1_of_tcpacGate_fault {f : Fault} (hFirst : ¬ EL3StopsFirst s) (h : tcpacGate s = .fault f)
    (fgtBit : Bool) : routeCpacrEl1 fgtBit s = .fault f := by
  rw [routeCpacrEl1_of_el1 hVHE hAA64 hEl, el3Priority_of_not_stopsFirst hFirst, h, andThen_fault]

/-- Where no EL2 trap catches the access, EL3's second test is what is left. -/
theorem routeCpacrEl1_of_no_el2_trap {fgtBit : Bool} (hFirst : ¬ EL3StopsFirst s) (h : NoEL2TrapOfCpacr fgtBit s) :
    ∃ d, (s.env.el2Enabled = false → d = s.draws) ∧
      routeCpacrEl1 fgtBit s = el3Trap s (.next (guestTarget s, s.withDraws d)) := by
  obtain ⟨hTcpac, hFgt⟩ := h
  obtain ⟨d, hd, hGate⟩ := tcpacGate_of_zero hTcpac
  refine ⟨d, hd, ?_⟩
  rw [routeCpacrEl1_of_el1 hVHE hAA64 hEl, el3Priority_of_not_stopsFirst hFirst, hGate, andThen_next]
  exact fgtGate_of_not_applies (s := s.withDraws d) hFgt _

end

/-- A guest's access that no test stops arrives, with at most a draw on the way. -/
theorem routeCpacrEl1_of_guest {fgtBit : Bool} {s : State} (h : GuestMayReach fgtBit s) :
    ∃ d, (s.env.el2Enabled = false → d = s.draws) ∧
      routeCpacrEl1 fgtBit s = .next (guestTarget s, s.withDraws d) := by
  obtain ⟨hVHE, hAA64, hEl, hForbids, hNoTrap⟩ := h
  have hFirst : ¬ EL3StopsFirst s := fun hStops => hForbids ⟨hStops.1, hStops.2.2⟩
  obtain ⟨d, hd, hRoute⟩ := routeCpacrEl1_of_no_el2_trap hVHE hAA64 hEl hFirst hNoTrap
  exact ⟨d, hd, hRoute.trans (el3Trap_of_not_forbids hForbids _)⟩

/-- At EL2 outside the host and at EL3 the access arrives at CPACR_EL1 (rule R105). -/
theorem routeCpacrEl1_of_above {s : State} (h : ReachesCpacrAbove s) (fgtBit : Bool) :
    routeCpacrEl1 fgtBit s = .next (.cpacrEl1, s) := by
  obtain ⟨hVHE, hAA64, ⟨hEl, hForbids, hHost⟩ | hEl⟩ := h
  · simp [routeCpacrEl1, hVHE, hAA64, hEl, hHost, el3Gates_of_not_forbids hForbids]
  · simp [routeCpacrEl1, hVHE, hAA64, hEl]

/-! ## An access that arrives outside the storage -/

section
variable {s : State} (hRoom : PcHasRoom s) (t : Nat)
include hRoom

theorem mrsFrom_cpacrEl1 :
    mrsFrom t (.next (.cpacrEl1, s)) = .next ((writeX t s.cpacrEl1 s).withPc (s.pc + 4#64)) :=
  (complete_of_room (by simpa using hRoom)).trans (by rw [writeX_pc])

/-- A read of the NVMem cell gives what is written there, and costs a draw at most (rule R64). -/
theorem mrsFrom_nvmem :
    ∃ v d, mrsFrom t (.next (.nvmem, s)) = .next ((writeX t v (s.withDraws d)).withPc (s.pc + 4#64)) ∧
      ∀ w, Memory.read 0x100 s.nvmem = some w → v = w := by
  have hDone (v : Word) (d : Nat) (hRead : nvRead 0x100 s = (v, s.withDraws d)) :
      mrsFrom t (.next (.nvmem, s)) = .next ((writeX t v (s.withDraws d)).withPc (s.pc + 4#64)) := by
    simp only [mrsFrom, readTarget, andThen_next, hRead]
    rw [complete_of_room (by simpa using hRoom), writeX_pc, State.withDraws_pc]
  rcases nvRead_eq 0x100 s with ⟨v, hCell, hRead⟩ | ⟨hNone, hRead⟩
  · exact ⟨v, s.draws, hDone v _ hRead, fun w hw => Option.some.inj (hCell.symm.trans hw)⟩
  · exact ⟨_, _, hDone _ _ hRead, fun w hw => by simp [hNone] at hw⟩

variable {t} {v : Word} (hv : readX t s = .next v)
include hv

theorem msrTo_cpacrEl1 :
    msrTo t (.next (.cpacrEl1, s)) = .next ((s.withCpacrEl1 v).withPc (s.pc + 4#64)) := by
  simp only [msrTo, andThen_next, hv, writeTarget]
  exact complete_of_room hRoom

theorem msrTo_nvmem :
    msrTo t (.next (.nvmem, s)) = .next ((s.withNvmem (Memory.write 0x100 v s.nvmem)).withPc (s.pc + 4#64)) := by
  simp only [msrTo, andThen_next, hv, writeTarget]
  exact complete_of_room hRoom

end

/-- An MSR that arrives anywhere from a register of no value faults (decision D14). -/
theorem msrTo_of_unwritten {t : Nat} {s : State} (ht : t < 31) (hHeld : s.xHeld.getLsbD t = false) (tgt : Target) :
    msrTo t (.next (tgt, s)) = .fault .unwrittenRegister := by
  have hRead : readX t s = .fault .unwrittenRegister := by rw [readX, dif_pos ht, hHeld]; rfl
  simp [msrTo, hRead]

/-! ## The statements on EL3's control and TCPAC -/

/-- Settles O12: at EL2 EL3's two tests stand alone; at EL1 the first comes before TCPAC, and the second is what is left
where no EL2 trap catches the access. -/
theorem el3ControlStopsAccessors : Obligations.EL3ControlStopsAccessors := by
  intro s t hAA64 hForbids
  refine ⟨fun hEl i hi => ?_, fun hVHE hEl => ⟨fun hPriority => ?_, fun hPriority => ?_⟩⟩
  · have hStop {n : AccessorName} (hn : n = .cpacrEl1 → s.params.featVHE = true) :=
      exec_of_routeBy_fault (routeBy_of_el2_forbidden hAA64 hEl hn hForbids) t
    rw [← fault_el3Stop]
    simp only [List.mem_cons, List.not_mem_nil, or_false] at hi
    rcases hi with (rfl | rfl) | ⟨hVHE, rfl | rfl⟩
    · exact (hStop (n := .cptrEl2) nofun).1
    · exact (hStop (n := .cptrEl2) nofun).2
    · exact (hStop (n := .cpacrEl1) fun _ => hVHE).1
    · exact (hStop (n := .cpacrEl1) fun _ => hVHE).2
  · refine exec_of_routeBy_fault (n := .cpacrEl1) (fun b => ?_) t
    rw [routeBy, routeCpacrEl1_of_el1 hVHE hAA64 hEl, el3Priority_of_stopsFirst ⟨hForbids.1, hPriority, hForbids.2⟩]
  · have hFirst : ¬ EL3StopsFirst s := by simp [hPriority]
    have hRoute {b : Bool} (hNoTrap : NoEL2TrapOfCpacr b s) :
        routeCpacrEl1 b s = .fault (el3Stop s.env.el3SDDUndef) := by
      obtain ⟨d, -, hRoute⟩ := routeCpacrEl1_of_no_el2_trap hVHE hAA64 hEl hFirst hNoTrap
      exact hRoute.trans (el3Trap_of_forbids hForbids _)
    rw [← fault_el3Stop]
    refine ⟨fun h2 hOne => ?_, fun hNoTrap => ?_, fun hNoTrap => ?_⟩
    · exact exec_of_routeBy_fault (n := .cpacrEl1)
        (routeCpacrEl1_of_tcpacGate_fault hVHE hAA64 hEl hFirst (tcpacGate_of_one h2 hOne)) t
    · rw [exec_mrsCpacrEl1, hRoute hNoTrap, mrsFrom_fault]
    · rw [exec_msrCpacrEl1, hRoute hNoTrap, msrTo_fault]

/-- Settles O13: the test reads what every content reads in bit 31, and lets the access through where EL2 is not
enabled. -/
theorem tcpacCatchesGuestAccess : Obligations.TcpacCatchesGuestAccess := by
  intro s t hVHE hAA64 hEl hFirst
  have hStop {f : Fault} (hGate : tcpacGate s = .fault f) :=
    exec_of_routeBy_fault (n := .cpacrEl1) (routeCpacrEl1_of_tcpacGate_fault hVHE hAA64 hEl hFirst hGate) t
  refine ⟨fun h2 hOne => hStop (tcpacGate_of_one h2 hOne), fun h2 hUnknown => hStop (tcpacGate_of_unknown h2 hUnknown),
    fun h2 hForbids hRoom hNvx => ?_⟩
  have hRoute (b : Bool) : routeCpacrEl1 b s = .next (.cpacrEl1, s) := by
    have hGuest : GuestMayReach b s := ⟨hVHE, hAA64, hEl, hForbids, by simp [h2], by simp [h2]⟩
    obtain ⟨d, hd, hRoute⟩ := routeCpacrEl1_of_guest hGuest
    rw [hRoute, hd h2, guestTarget, if_neg hNvx]
    rfl
  rw [exec_mrsCpacrEl1, exec_msrCpacrEl1, hRoute, hRoute]
  exact ⟨mrsFrom_cpacrEl1 hRoom t, fun v hv => msrTo_cpacrEl1 hRoom hv⟩

/-! ## The statements on an access that no test stops -/

/-- Settles O20: the arms arrive at CPACR_EL1 with the state as it was. -/
theorem cpacrNameAboveTheHost : Obligations.CpacrNameAboveTheHost := by
  intro s t hAbove hRoom
  rw [exec_mrsCpacrEl1, exec_msrCpacrEl1, routeCpacrEl1_of_above hAbove, routeCpacrEl1_of_above hAbove]
  exact ⟨mrsFrom_cpacrEl1 hRoom t, fun v hv => msrTo_cpacrEl1 hRoom hv⟩

/-- Settles O21: the arms arrive after at most a draw, at the cell or at CPACR_EL1 as NVx says. -/
theorem guestReadOfCpacr : Obligations.GuestReadOfCpacr := by
  intro s t hGuest hRoom
  obtain ⟨d, -, hRoute⟩ := routeCpacrEl1_of_guest hGuest
  rw [exec_mrsCpacrEl1, hRoute, guestTarget]
  by_cases hNvx : s.env.nvx = 0b111#3
  · rw [if_pos hNvx]
    obtain ⟨v, d', hDone, hCell⟩ := mrsFrom_nvmem (s := s.withDraws d) hRoom t
    exact ⟨d', v, hDone, fun hOther => absurd hNvx hOther, fun _ => hCell⟩
  · rw [if_neg hNvx]
    exact ⟨d, s.cpacrEl1, mrsFrom_cpacrEl1 (s := s.withDraws d) hRoom t, fun _ => rfl, fun hCell => absurd hCell hNvx⟩

/-- Settles O22: the arms arrive after at most a draw, and the target is written with `x[t]`. -/
theorem guestWriteOfCpacr : Obligations.GuestWriteOfCpacr := by
  intro s t v hGuest hRoom hv
  obtain ⟨d, -, hRoute⟩ := routeCpacrEl1_of_guest hGuest
  refine ⟨d, ?_⟩
  rw [exec_msrCpacrEl1, hRoute, guestTarget]
  by_cases hNvx : s.env.nvx = 0b111#3
  · rw [if_pos hNvx, if_pos hNvx]
    exact msrTo_nvmem (s := s.withDraws d) hRoom hv
  · rw [if_neg hNvx, if_neg hNvx]
    exact msrTo_cpacrEl1 (s := s.withDraws d) hRoom hv

/-- Settles O26: wherever the access arrives, `x[t]` is read before the target is looked at. -/
theorem msrOfUnwrittenRegisterFaults : Obligations.MsrOfUnwrittenRegisterFaults := by
  intro n t s ht hHeld
  refine ⟨fun hReaches => ?_, fun hAbove => ?_, fun hGuest => ?_⟩
  · rw [exec_msrBy, routeBy_of_reaches hReaches]
    exact msrTo_of_unwritten ht hHeld _
  · rw [exec_msrCpacrEl1, routeCpacrEl1_of_above hAbove]
    exact msrTo_of_unwritten ht hHeld _
  · obtain ⟨d, -, hRoute⟩ := routeCpacrEl1_of_guest hGuest
    rw [exec_msrCpacrEl1, hRoute]
    exact msrTo_of_unwritten (s := s.withDraws d) ht hHeld _

/-! ## The frame of the MSR -/

theorem msrBy_name {n m : AccessorName} {t u : Nat} (h : msrBy n t = msrBy m u) : n = m := by
  cases n <;> cases m <;> cases h <;> rfl

theorem msrBy_ne_sync (n : AccessorName) (t : Nat) : msrBy n t ≠ .sync := by
  cases n <;> simp [msrBy]

/-- The arms lead outside the storage only where it is not reached, and to NVMem exactly from EL1 with NVx = 111 (rule
R105). -/
theorem routeBy_outside_storage {n : AccessorName} {fgtBit : Bool} {s s0 : State} {tgt : Target}
    (h : routeBy n fgtBit s = .next (tgt, s0)) (hOutside : ∀ m, tgt ≠ .cptr m) :
    ¬ ReachesStorage n s ∧ (tgt = .nvmem ↔ s.env.el = .el1 ∧ s.env.nvx = 0b111#3) := by
  refine ⟨fun hReaches => ?_, ?_⟩
  · obtain ⟨rfl, -⟩ := Prod.mk.inj (Host.Outcome.next.inj ((routeBy_of_reaches hReaches fgtBit).symm.trans h))
    exact hOutside n rfl
  · cases n with
    | cptrEl2 => exact absurd (routeCptrEl2_eq_next h).1 (hOutside _)
    | cpacrEl1 =>
      obtain ⟨-, -, -, ⟨hEl, ⟨hNvx, rfl⟩ | ⟨hNvx, rfl⟩⟩ | ⟨hEl, -, ⟨-, rfl⟩ | ⟨-, rfl⟩⟩ | ⟨hEl, -, rfl⟩⟩ :=
        routeCpacrEl1_eq_next h
      · simp [hEl, hNvx]
      · simp [hNvx]
      · simp [hEl]
      · simp [hEl]
      · simp [hEl]

/-- The effect of an MSR is a change of `W`, of CPACR_EL1 or of the cell at 0x100, with what lets it get there, and at
most a draw. -/
theorem Effect.of_msrBy {n : AccessorName} {t : Nat} {s s1 : State} (h : Effect (msrBy n t) s s1) :
    (ReachesStorage n s ∧ ∃ w d, s1 = (s.withStorage s.base w).withDraws d) ∨
    (¬ ReachesStorage n s ∧ ¬ (s.env.el = .el1 ∧ s.env.nvx = 0b111#3) ∧
      ∃ v d, s1 = (s.withCpacrEl1 v).withDraws d) ∨
    (¬ ReachesStorage n s ∧ (s.env.el = .el1 ∧ s.env.nvx = 0b111#3) ∧
      ∃ v d, s1 = (s.withNvmem (Memory.write 0x100 v s.nvmem)).withDraws d) := by
  cases h with
  | read m u hi => exact absurd hi.symm (mrsBy_ne_msrBy m n u t)
  | ignored m u hi hReaches =>
    obtain rfl := msrBy_name hi
    exact .inl ⟨hReaches, s.pending, s.draws, rfl⟩
  | pend m u hi hReaches v =>
    obtain rfl := msrBy_name hi
    exact .inl ⟨hReaches, (directWrite n v s).pending, s.draws + 1, rfl⟩
  | storeCpacr m u hi d hRoute v =>
    obtain rfl := msrBy_name hi
    obtain ⟨hNot, hTarget⟩ := routeBy_outside_storage hRoute nofun
    exact .inr (.inl ⟨hNot, mt hTarget.2 nofun, v, d, rfl⟩)
  | storeNvmem m u hi d hRoute v =>
    obtain rfl := msrBy_name hi
    obtain ⟨hNot, hTarget⟩ := routeBy_outside_storage hRoute nofun
    exact .inr (.inr ⟨hNot, hTarget.1 rfl, v, d, rfl⟩)
  | publish hi => exact absurd hi (msrBy_ne_sync n t)

/-- Settles O36: each of the three effects of an MSR leaves the other two places and the rest of the state alone. -/
theorem msrFrame : Obligations.MsrFrame := by
  intro n t s s' h
  obtain ⟨-, s1, hEffect, rfl⟩ := exec_effect h
  have hSurroundings : SameSurroundings s s1 := hEffect.sameSurroundings
  rcases hEffect.of_msrBy with ⟨hReaches, w, d, rfl⟩ | ⟨hNot, hElsewhere, v, d, rfl⟩ | ⟨hNot, hGuest, v, d, rfl⟩
  · exact ⟨fun _ => rfl, rfl, rfl, hSurroundings, fun _ => rfl, fun _ _ => rfl, fun hNot => absurd hReaches hNot,
      fun _ => ⟨rfl, fun _ => rfl⟩, fun _ _ => rfl, fun _ _ => rfl⟩
  · exact ⟨fun _ => rfl, rfl, rfl, hSurroundings, fun _ => rfl, fun _ _ => rfl, fun _ => rfl,
      fun hReaches => absurd hReaches hNot, fun hEl hNvx => absurd ⟨hEl, hNvx⟩ hElsewhere, fun _ _ => rfl⟩
  · exact ⟨fun _ => rfl, rfl, rfl, hSurroundings, fun _ => rfl, fun _ ha => Memory.read_write_other v s.nvmem ha,
      fun _ => rfl, fun hReaches => absurd hReaches hNot, fun _ _ => rfl,
      fun hElsewhere => absurd hGuest hElsewhere⟩

end Sys2Proof.Machine
end

section
/-!
The trap check (`spec/41_trap_controls_e2h1.md`, `spec/42_trap_controls_e2h0.md`): what stops a step or a check before
it begins, the two-bit decode, and what a trap may name.
-/

namespace Sys2Proof.Machine

/-! ## The state of rule R142, and what stops a step before the fetch -/

theorem unreachable_iff (s : State) :
    unreachable s = true ↔ s.env.el = .el1 ∧ s.env.tge = true ∧ s.env.el2Enabled = true := by
  simp [unreachable, and_assoc]

theorem step_of_unreachable {s : State} (h : unreachable s = true) : step s = .refused .unreachableState := by
  rw [step, fetchInstr, if_pos h, andThen_refused]

theorem step_of_misaligned {s : State} (hState : unreachable s = false) (h : ¬ PcAligned s) :
    step s = .refused .misalignedPc := by
  rw [step, fetchInstr, if_neg (Bool.eq_false_iff.1 hState), if_pos h, andThen_refused]

theorem step_of_no_text {s : State} (hState : unreachable s = false) (hAligned : PcAligned s)
    (h : fetchBytes s.pc.toNat s.text = none) : step s = .fault .endOfProgram := by
  rw [step, fetchInstr, if_neg (Bool.eq_false_iff.1 hState), if_neg (not_not_intro hAligned), h, andThen_fault]

theorem checkHere_of_unreachable {s : State} (h : unreachable s = true) (i : CheckedInstr) :
    checkHere i s = .refused .unreachableState := if_pos h

theorem checkHere_of_reachable {s : State} (h : unreachable s = false) (i : CheckedInstr) :
    checkHere i s = cptrEl2Check (classify i s.env.el s.env.trappedByCpacrTrace) s.env.el s.env.aarch s :=
  if_neg (Bool.eq_false_iff.1 h)

/-- Settles O6: the three tests of the fetch in their order. -/
theorem stepStopsBeforeFetch : Obligations.StepStopsBeforeFetch := by
  intro s
  rw [← unreachable_iff, Bool.not_eq_true]
  exact ⟨step_of_unreachable, fun hState => ⟨step_of_misaligned hState, step_of_no_text hState⟩⟩

/-! ## The two-bit decode (rule R142) -/

section
variable (tge : Bool) (el : EL)

theorem enTraps_zero : enTraps tge 0b00#2 el = decide (el ≠ .el3) := rfl
theorem enTraps_one : enTraps tge 0b01#2 el = (tge && decide (el = .el0)) := rfl
theorem enTraps_two : enTraps tge 0b10#2 el = decide (el ≠ .el3) := rfl
theorem enTraps_three : enTraps tge 0b11#2 el = false := rfl

/-- A function of the four values of an enable that traps as rules R134, R137 and R140 say below EL3 is the decode. -/
theorem eq_enTraps {traps : BitVec 2 → Bool} (hEl : el ≠ .el3) (h0 : traps 0b00#2 = true) (h2 : traps 0b10#2 = true)
    (h3 : traps 0b11#2 = false) (h1 : traps 0b01#2 = (tge && decide (el = .el0))) (v : BitVec 2) :
    traps v = enTraps tge v el := by
  have hValue : v = 0b00#2 ∨ v = 0b01#2 ∨ v = 0b10#2 ∨ v = 0b11#2 := by decide +revert
  have hBelow : decide (el ≠ .el3) = true := decide_eq_true hEl
  rcases hValue with rfl | rfl | rfl | rfl
  · rw [h0, enTraps_zero, hBelow]
  · rw [h1, enTraps_one]
  · rw [h2, enTraps_two, hBelow]
  · rw [h3, enTraps_three]

end

/-- Settles O46: the decode value by value; the state of rule R142 is tested first, by a step and by a check. -/
theorem twoBitEnableDecode : Obligations.TwoBitEnableDecode := by
  refine ⟨fun tge el => ⟨enTraps_zero tge el, enTraps_two tge el, enTraps_three tge el, enTraps_one tge el⟩,
    fun s i hEl hTge h2 => ?_⟩
  have hState := (unreachable_iff s).2 ⟨hEl, hTge, h2⟩
  exact ⟨step_of_unreachable hState, checkHere_of_unreachable hState i⟩

/-! ## What a trap may name (rules R121 (e), R150 (e), R170) -/

/-- Where E0POE traps the answer is the trap or, by decision D17, none. -/
theorem e0poeVerdict_cases (s : State) (d : Nat) :
    e0poeVerdict s d = .trap .el2 0x18 none ∨ e0poeVerdict s d = .noTrap := by
  unfold e0poeVerdict
  split
  · exact .inl rfl
  · split
    · exact (choose_mem d _ _).imp_right List.eq_of_mem_singleton
    · exact .inr rfl
    · exact .inl rfl

theorem e0poeVerdict_of_tge {s : State} (h : s.env.tge = true) (d : Nat) :
    e0poeVerdict s d = .trap .el2 0x18 none := if_pos h

/-- A verdict that, where it is a trap, is one to EL2 with an EC of rule R170. -/
def ListedTrap (v : Verdict) : Prop :=
  ∀ target ec iss, v = .trap target ec iss → target = .el2 ∧ ec ∈ [0x03, 0x04, 0x05, 0x07, 0x18, 0x19, 0x1D]

theorem ListedTrap.noTrap : ListedTrap .noTrap := nofun
theorem ListedTrap.higherPriorityUndefined : ListedTrap .higherPriorityUndefined := nofun

theorem ListedTrap.toEL2 {ec : Nat} (h : ec ∈ [0x03, 0x04, 0x05, 0x07, 0x18, 0x19, 0x1D]) (iss : Option Nat) :
    ListedTrap (.toEL2 ec iss) := by
  rintro _ _ _ ⟨⟩
  exact ⟨rfl, h⟩

theorem ListedTrap.tcpac (st : ExecState) : ListedTrap (.toEL2 (tcpacEc st) none) := by
  cases st <;> exact .toEL2 (by decide) _

theorem ListedTrap.tta (st : ExecState) : ListedTrap (.toEL2 (ttaEc st) none) := by
  cases st <;> exact .toEL2 (by decide) _

theorem ListedTrap.tam (amu : Option AmuKind) : ListedTrap (.toEL2 (tamEc amu) none) := by
  rcases amu with _ | _ | _ | _ <;> exact .toEL2 (by decide) _

theorem ListedTrap.e0poe (s : State) (d : Nat) : ListedTrap (e0poeVerdict s d) := by
  rcases e0poeVerdict_cases s d with h | h
  · rw [h]; exact .toEL2 (by decide) none
  · rw [h]; exact .noTrap

/-- Every answer a test of either layout can give is one. -/
theorem listedTrap_of_mem_testsOf (s : State) (c : Content) (i : ClassInputs) (el : EL) (st : ExecState) :
    ∀ p ∈ testsOf s c i el st, ListedTrap p.2 := by
  have hSme : ListedTrap (.toEL2 0x1D (some 0)) := .toEL2 (by decide) _
  have hSve : ListedTrap (.toEL2 0x19 none) := .toEL2 (by decide) _
  have hFp : ListedTrap (.toEL2 0x07 none) := .toEL2 (by decide) _
  cases hE2h : s.env.e2h with
  | true =>
    simp only [testsOf_layoutA hE2h, testsA, List.forall_mem_cons]
    exact ⟨hSme, hSve, hFp, .tcpac st, .tam i.amu, .e0poe s _, .tta st, List.forall_mem_nil _⟩
  | false =>
    simp only [testsOf_layoutB hE2h, testsB, List.forall_mem_cons]
    exact ⟨hSme, hSve, hFp, .tcpac st, .tam i.amu, .tta st, List.forall_mem_nil _⟩

/-- Settles O45: a check that answers is one of three kinds; a trap is the answer of a test, and no test is met at
EL3. -/
theorem checkTargetsEL2AndChangesNothing : Obligations.CheckTargetsEL2AndChangesNothing := by
  intro i el st s s' v h
  rcases cptrEl2Check_eq_next h with ⟨rfl, rfl, -⟩ | ⟨rfl, rfl, rfl⟩ | ⟨-, hEl, rfl, hTests⟩
  · exact ⟨⟨s'.draws, rfl⟩, fun _ => rfl, ListedTrap.noTrap⟩
  · exact ⟨⟨s'.draws, rfl⟩, nofun, ListedTrap.higherPriorityUndefined⟩
  · refine ⟨⟨_, rfl⟩, fun hEl3 => absurd hEl3 hEl, ?_⟩
    rcases firstTrap_eq_some hTests with rfl | ⟨p, hp, -, rfl⟩
    · exact ListedTrap.noTrap
    · exact listedTrap_of_mem_testsOf _ _ _ _ _ p hp

end Sys2Proof.Machine
end

section
/-!
The answer of a check of a settled storage, in both layouts, in one closed form (`settledVerdict`), from which the
statements about the single controls are read off.
-/

namespace Sys2Proof.Machine

/-! ## The closed form -/

/-- The control with the two-bit enable from bit `enable` up in layout A and the trap bit `bit` in layout B traps at a
level: `controlTraps` at a level that need not be the current one. -/
def controlTrapsAt (enable bit : Nat) (el : EL) (s : State) : Bool :=
  if s.env.e2h then enTraps s.env.tge (s.base.bits.extractLsb' enable 2) el
  else s.base.bits.getLsbD bit && belowEL3 el

/-- TTA traps a trace register access at a level (rules R130, R157). -/
def ttaTrapsAt (byCpacr : Bool) (el : EL) (s : State) : Bool :=
  if s.env.e2h then
    s.base.bits.getLsbD 28 && ((!s.env.tge && belowEL3 el && !byCpacr) ||
      (s.env.tge && (decide (el = .el0) || decide (el = .el2))))
  else s.base.bits.getLsbD 20 && belowEL3 el && !byCpacr

/-- The answer of the tests of either layout where every bit holds a value, as one chain in the order of rules R143 and
R167. -/
def settledVerdict (i : ClassInputs) (el : EL) (st : ExecState) (s : State) : Verdict :=
  if s.params.featSME && inSMEclass s i && controlTrapsAt 24 12 el s then .trap .el2 0x1D (some 0)
  else if s.params.featSVE && inSVEclass s i && controlTrapsAt 16 8 el s then .trap .el2 0x19 none
  else if inFPclass s i && controlTrapsAt 20 10 el s then .trap .el2 0x07 none
  else if i.cpacr && decide (el = .el1) && (s.base.bits.getLsbD 31 && !s.env.tge) then .trap .el2 (tcpacEc st) none
  else if s.params.featAMUv1 && i.amu.isSome && (decide (el = .el0) || decide (el = .el1)) &&
      s.base.bits.getLsbD 30 then .trap .el2 (tamEc i.amu) none
  else if s.env.e2h && (s.params.featS1POE && i.porEl0 && decide (st = .aarch64) && decide (el = .el0) &&
      !s.base.bits.getLsbD 29) then e0poeVerdict s (s.draws + 1)
  else if s.params.traceSysreg && i.trace && ttaTrapsAt i.trappedByCpacrTrace el s then .trap .el2 (ttaEc st) none
  else .noTrap

/-- A test of a field that holds a value answers, or leaves the rest of the list to answer. -/
theorem firstTrap_cons_some (b : Bool) (v : Verdict) (l : List (Option Bool × Verdict)) :
    firstTrap ((some b, v) :: l) = if b then some v else firstTrap l := by
  cases b <;> rfl

theorem firstTrap_testsOf_of_full {s : State} (hFull : s.base.full = true) (i : ClassInputs) (el : EL)
    (st : ExecState) : firstTrap (testsOf s s.base i el st) = some (settledVerdict i el st s) := by
  have hBit (k : Nat) (hk : k < 64) := Content.bit?_of_full hFull hk
  have hEnable (lo : Nat) (hLo : lo + 2 ≤ 64) := Content.slice?_of_full hFull lo 2 hLo
  cases hE2h : s.env.e2h with
  | true =>
    simp [testsOf_layoutA hE2h, testsA, smenTraps, zenTraps, fpenTraps, tcpacTraps, tamTraps, e0poeTraps, ttaTrapsA,
      hBit, hEnable, whenClass_some, firstTrap_cons_some, settledVerdict, controlTrapsAt, ttaTrapsAt, hE2h,
      Verdict.toEL2, apply_ite some]
  | false =>
    simp [testsOf_layoutB hE2h, testsB, tsmTraps, tzTraps, tfpTraps, tcpacTraps, tamTraps, ttaTrapsB,
      hBit, whenClass_some, firstTrap_cons_some, settledVerdict, controlTrapsAt, ttaTrapsAt, hE2h,
      Verdict.toEL2, apply_ite some]

/-- At EL3 no test holds. -/
theorem settledVerdict_el3 (i : ClassInputs) (st : ExecState) (s : State) :
    settledVerdict i .el3 st s = .noTrap := by
  have hControl (enable bit : Nat) : controlTrapsAt enable bit .el3 s = false := by
    simp [controlTrapsAt, enTraps, belowEL3]
  simp [settledVerdict, hControl, ttaTrapsAt, belowEL3]

theorem cptrEl2Check_of_undefinedTrace {i : ClassInputs} {el : EL} {st : ExecState} {s : State}
    (h2 : s.env.el2Enabled = true) (h : undefinedTrace s i el = true) :
    cptrEl2Check i el st s = .next (.higherPriorityUndefined, s) := by
  have hOff : ¬ (!s.env.el2Enabled || decide (el = .el3)) = true := by
    have hEl : el = .el0 := of_decide_eq_true (Bool.and_elim_right (Bool.and_elim_left h))
    simp [h2, hEl]
  rw [cptrEl2Check, if_neg hOff, if_pos h]

section
variable {s : State} (hSettled : Settled s) (h2 : s.env.el2Enabled = true)
include hSettled h2

/-- A check of a settled storage that no rule of higher priority answers, where EL2 is enabled. -/
theorem verdict?_of_settled {i : ClassInputs} {el : EL} {st : ExecState} (hTrace : undefinedTrace s i el = false)
    (hFpId : undefinedFpId i el st = false) (hMvfr : isMvfrWrite i st = false) :
    verdict? (cptrEl2Check i el st s) = some (settledVerdict i el st s) := by
  by_cases hEl : el = .el3
  · rw [hEl, settledVerdict_el3, cptrEl2Check, if_pos (by simp), verdict?]
  · have hTests : TestsAnswer i el st s := by simp [TestsAnswer, h2, hEl, hTrace, hFpId, hMvfr]
    have hInputs : settleMvfr s i st = i := by simp [settleMvfr, hMvfr]
    rw [cptrEl2Check_of_tests hTests, hInputs, indirectRead_synchronised hSettled.1,
      firstTrap_testsOf_of_full hSettled.2, Option.elim_some, verdict?]

theorem verdict?_of_no_fpId {i : ClassInputs} {el : EL} {st : ExecState} (hTrace : undefinedTrace s i el = false)
    (hId : i.fpId = none) : verdict? (cptrEl2Check i el st s) = some (settledVerdict i el st s) :=
  verdict?_of_settled hSettled h2 hTrace (by simp [undefinedFpId, hId]) (by simp [isMvfrWrite, hId])

end

/-! ## The controls of SME, SVE and floating point (rules R133 to R140, R159 to R166) -/

/-- An instruction of none of the classes of the System register controls meets the three controls alone. -/
theorem settledVerdict_of_no_register {i : ClassInputs} (hCpacr : i.cpacr = false) (hAmu : i.amu = none)
    (hPor : i.porEl0 = false) (hTrace : i.trace = false) (el : EL) (st : ExecState) (s : State) :
    settledVerdict i el st s =
      if s.params.featSME && inSMEclass s i && controlTrapsAt 24 12 el s then .trap .el2 0x1D (some 0)
      else if s.params.featSVE && inSVEclass s i && controlTrapsAt 16 8 el s then .trap .el2 0x19 none
      else if inFPclass s i && controlTrapsAt 20 10 el s then .trap .el2 0x07 none
      else .noTrap := by
  simp [settledVerdict, hCpacr, hAmu, hPor, hTrace]

/-- Settles O47: in layout A the three controls are the enables, whose decode the given function is. -/
theorem enablesOfLayoutA : Obligations.EnablesOfLayoutA := by
  intro sme sve smeReg sveReg fp fpmr el st s traps hSettled h2 hE2h hEl _ ⟨h00, h10, h11, h01⟩
  have hControl (enable bit : Nat) :
      controlTrapsAt enable bit el s = traps (s.base.bits.extractLsb' enable 2) := by
    rw [controlTrapsAt, if_pos hE2h, eq_enTraps s.env.tge el hEl h00 h10 h11 h01]
  rw [verdict?_of_no_fpId hSettled h2 rfl rfl, settledVerdict_of_no_register rfl rfl rfl rfl]
  simp only [hControl, inSMEclass, inSVEclass, inFPclass]

/-- At the current level, below EL3, the decode is the one the statements write out. -/
theorem controlTrapsAt_current {s : State} (hEl : s.env.el ≠ .el3) (enable bit : Nat) :
    controlTrapsAt enable bit s.env.el s = controlTraps enable bit s := by
  have hEnable (v : BitVec 2) : enTraps s.env.tge v s.env.el = enableTraps v s :=
    (eq_enTraps (traps := fun v => enableTraps v s) _ _ hEl rfl rfl rfl rfl v).symm
  simp [controlTrapsAt, controlTraps, hEnable, belowEL3, hEl]

/-- At the current level the three controls are those of the statements. -/
theorem settledVerdict_current {i : ClassInputs} {s : State} (hEl : s.env.el ≠ .el3) (hCpacr : i.cpacr = false)
    (hAmu : i.amu = none) (hPor : i.porEl0 = false) (hTrace : i.trace = false) (st : ExecState) :
    settledVerdict i s.env.el st s =
      if s.params.featSME && inSMEclass s i && smeControlTraps s then .trap .el2 0x1D (some 0)
      else if s.params.featSVE && inSVEclass s i && sveControlTraps s then .trap .el2 0x19 none
      else if inFPclass s i && fpControlTraps s then .trap .el2 0x07 none
      else .noTrap := by
  rw [smeControlTraps, sveControlTraps, fpControlTraps, settledVerdict_of_no_register hCpacr hAmu hPor hTrace,
    controlTrapsAt_current hEl, controlTrapsAt_current hEl, controlTrapsAt_current hEl]

section
variable {s : State} (hSettled : Settled s) (h2 : s.env.el2Enabled = true) (hEl : s.env.el ≠ .el3)
  (hState : unreachable s = false)
include hSettled h2 hEl hState

/-- A described instruction of the class of floating point alone is trapped by FPEN or TFP. -/
theorem verdict?_checkHere_of_fp {i : CheckedInstr} {fpId : Option FpIdAccess}
    (hClass : classify i s.env.el s.env.trappedByCpacrTrace = { fpReg := true, fpId := fpId })
    (hFpId : undefinedFpId { fpReg := true, fpId := fpId } s.env.el s.env.aarch = false)
    (hMvfr : isMvfrWrite { fpReg := true, fpId := fpId } s.env.aarch = false) :
    verdict? (checkHere i s) = some (if fpControlTraps s then .trap .el2 0x07 none else .noTrap) := by
  rw [checkHere_of_reachable hState, hClass, verdict?_of_settled hSettled h2 rfl hFpId hMvfr,
    settledVerdict_current hEl rfl rfl rfl rfl]
  simp [inSMEclass, inSVEclass, inFPclass]

theorem verdict?_checkHere_of_fpmr (write : Bool) : verdict? (checkHere (.sysReg64 .fpmr write) s) =
    some (if s.params.featFPMR && fpControlTraps s then .trap .el2 0x07 none else .noTrap) := by
  rw [checkHere_of_reachable hState, verdict?_of_no_fpId hSettled h2 rfl rfl,
    settledVerdict_current hEl rfl rfl rfl rfl]
  simp [classify, classify64, inSMEclass, inSVEclass, inFPclass]

/-- A described access to a register of SME is trapped by SMEN or TSM. -/
theorem verdict?_checkHere_of_sme {i : CheckedInstr}
    (hClass : classify i s.env.el s.env.trappedByCpacrTrace = { smeReg := true }) :
    verdict? (checkHere i s) =
      some (if s.params.featSME && smeControlTraps s then .trap .el2 0x1D (some 0) else .noTrap) := by
  rw [checkHere_of_reachable hState, hClass, verdict?_of_no_fpId hSettled h2 rfl rfl,
    settledVerdict_current hEl rfl rfl rfl rfl]
  simp [inSMEclass, inSVEclass, inFPclass]

/-- A described access to a register of SVE is trapped by ZEN or TZ. -/
theorem verdict?_checkHere_of_sve {i : CheckedInstr}
    (hClass : classify i s.env.el s.env.trappedByCpacrTrace = { sveReg := true }) :
    verdict? (checkHere i s) =
      some (if s.params.featSVE && sveControlTraps s then .trap .el2 0x19 none else .noTrap) := by
  rw [checkHere_of_reachable hState, hClass, verdict?_of_no_fpId hSettled h2 rfl rfl,
    settledVerdict_current hEl rfl rfl rfl rfl]
  simp [inSMEclass, inSVEclass, inFPclass]

/-- Above EL0 an access to a register of the note of rule R138 is trapped as use of the SIMD and floating-point
registers, where it counts as that and is no write of an MVFR. -/
theorem verdict?_checkHere_of_fpId {r : FpIdReg} {write : Bool} (hEl0 : s.env.el ≠ .el0)
    (hFp : fpIdIsFpReg ⟨r, write⟩ s.env.el = true) (hMvfr : ∀ st, isMvfrWrite { fpId := some ⟨r, write⟩ } st = false) :
    verdict? (checkHere (.sysReg32 (.fpId r) write) s) =
      some (if fpControlTraps s then .trap .el2 0x07 none else .noTrap) :=
  verdict?_checkHere_of_fp hSettled h2 hEl hState (fpId := some ⟨r, write⟩) (by rw [classify, classify32, hFp])
    (by simp [undefinedFpId, hEl0]) (hMvfr _)

theorem verdict?_checkHere_of_fpsid_write (hEl0 : s.env.el ≠ .el0) :
    verdict? (checkHere (.sysReg32 (.fpId .fpsid) true) s) =
      some (if fpControlTraps s then .trap .el2 0x07 none else .noTrap) :=
  verdict?_checkHere_of_fpId hSettled h2 hEl hState hEl0 (by simp [fpIdIsFpReg, hEl0]) (by simp [isMvfrWrite])

end

/-- Settles O49: each named access is of one class, which its own control traps. -/
theorem namedAccessesAreTrapped : Obligations.NamedAccessesAreTrapped := by
  intro s write k hSettled h2 hEl hState
  have hFp {i : CheckedInstr} (hClass : classify i s.env.el s.env.trappedByCpacrTrace = { fpReg := true }) :=
    verdict?_checkHere_of_fp hSettled h2 hEl hState hClass rfl (by simp [isMvfrWrite])
  have hSme {i : CheckedInstr} := verdict?_checkHere_of_sme (i := i) hSettled h2 hEl hState
  have hSve {i : CheckedInstr} := verdict?_checkHere_of_sve (i := i) hSettled h2 hEl hState
  simp only [List.forall_mem_cons]
  refine ⟨⟨hFp rfl, hFp rfl, hFp rfl, hFp rfl, hFp rfl, List.forall_mem_nil _⟩,
    verdict?_checkHere_of_fpmr hSettled h2 hEl hState write, fun hEl0 _ => ?_,
    ⟨hSme rfl, hSme rfl, hSme rfl, hSme rfl, List.forall_mem_nil _⟩, hSve rfl, hSve rfl, List.forall_mem_nil _⟩
  have hFpId {r : FpIdReg} {write : Bool} := verdict?_checkHere_of_fpId (r := r) (write := write) hSettled h2 hEl
    hState hEl0
  exact ⟨hFpId rfl (by simp [isMvfrWrite]), hFpId rfl (by simp [isMvfrWrite]), hFpId rfl (by simp [isMvfrWrite]),
    hFpId rfl (by simp [isMvfrWrite]), verdict?_checkHere_of_fpsid_write hSettled h2 hEl hState hEl0,
    List.forall_mem_nil _⟩

/-- Settles O56: the rules ahead of the tests answer at EL0 and for a write of an MVFR; a write of FPSID reaches the
tests. -/
theorem fpIdRegisterAccesses : Obligations.FpIdRegisterAccesses := by
  intro r write s h2 hState hSt
  have hLevel (hEl : s.env.el = .el1 ∨ s.env.el = .el2) : s.env.el ≠ .el0 ∧ s.env.el ≠ .el3 := by
    rcases hEl with h | h <;> simp [h]
  refine ⟨fun hEl0 => ?_, fun hEl hPolicy hMvfr => ?_, fun hEl hSettled => ?_⟩
  · rw [checkHere_of_reachable hState]
    simp [cptrEl2Check, classify, classify32, undefinedTrace, undefinedFpId, h2, hSt, hEl0, verdict?]
  · have hWrite (fp : Bool) : isMvfrWrite { fpReg := fp, fpId := some ⟨r, true⟩ } .aarch32 = true := by
      rcases hMvfr with rfl | rfl | rfl <;> rfl
    rw [checkHere_of_reachable hState]
    simp [cptrEl2Check, classify, classify32, undefinedTrace, undefinedFpId, h2, hSt, hLevel hEl, hWrite, hPolicy]
  · obtain ⟨hEl0, hEl3⟩ := hLevel hEl
    exact verdict?_checkHere_of_fpsid_write hSettled h2 hEl3 hState hEl0

/-! ## The controls of System registers (rules R122 to R131, R151 to R158) -/

/-- Settles O50: TCPAC is the one test an access to CPACR_EL1 or CPACR meets. -/
theorem tcpacField : Obligations.TcpacField := by
  intro el st s hSettled h2
  rw [verdict?_of_no_fpId hSettled h2 rfl rfl]
  simp [settledVerdict, inSMEclass, inSVEclass, inFPclass, tcpacEc]

/-- Settles O51: TAM is the one test an access to an Activity Monitors register meets. -/
theorem tamField : Obligations.TamField := by
  intro k el st s hSettled h2
  rw [verdict?_of_no_fpId hSettled h2 rfl rfl]
  cases k <;> simp [settledVerdict, inSMEclass, inSVEclass, inFPclass, and_assoc, tamEc]

/-- Settles O52: each register is of the class of TAM by the kind of its access. -/
theorem activityMonitorRegisters : Obligations.ActivityMonitorRegisters := by
  intro r c write s hSettled h2 hState hFeat hEl hBit
  have hTrap {i : CheckedInstr} (k : AmuKind)
      (hClass : classify i s.env.el s.env.trappedByCpacrTrace = { amu := some k }) :
      verdict? (checkHere i s) = some (.trap .el2 (tamEc (some k)) none) := by
    rw [checkHere_of_reachable hState, hClass, verdict?_of_no_fpId hSettled h2 rfl rfl]
    simp [settledVerdict, inSMEclass, inSVEclass, inFPclass, hFeat, hEl, hBit]
  exact ⟨hTrap .a64 rfl, hTrap .a64 rfl, hTrap .a32MrcMcr rfl, hTrap .a32MrrcMcrr rfl⟩

theorem settledVerdict_porEl0 (el : EL) (st : ExecState) (s : State) :
    settledVerdict { porEl0 := true } el st s =
      if s.env.e2h = true ∧ s.params.featS1POE = true ∧ st = .aarch64 ∧ el = .el0 ∧ s.base.bits.getLsbD 29 = false then
        e0poeVerdict s (s.draws + 1)
      else .noTrap := by
  simp [settledVerdict, inSMEclass, inSVEclass, inFPclass, and_assoc]

/-- Settles O53: E0POE is the one test an access to POR_EL0 meets. -/
theorem e0poeField : Obligations.E0poeField := by
  intro el st s hSettled h2
  rw [verdict?_of_no_fpId hSettled h2 rfl rfl, settledVerdict_porEl0]
  refine ⟨fun hTraps => ?_, fun hNot => by rw [if_neg hNot]⟩
  rw [if_pos hTraps]
  exact ⟨fun hTge => congrArg some (e0poeVerdict_of_tge hTge _),
    fun _ => (e0poeVerdict_cases s _).imp (congrArg some) (congrArg some)⟩

/-- What TTA traps below EL3, layout by layout (rules R130, R157). -/
theorem ttaTrapsAt_iff {el : EL} (hEl : el ≠ .el3) (byCpacr : Bool) (s : State) :
    ttaTrapsAt byCpacr el s = true ↔
      (s.env.e2h = true ∧ s.base.bits.getLsbD 28 = true ∧
        ((s.env.tge = false ∧ byCpacr = false) ∨ (s.env.tge = true ∧ el ≠ .el1))) ∨
      (s.env.e2h = false ∧ s.base.bits.getLsbD 20 = true ∧ byCpacr = false) := by
  have hNotEl1 : el = .el0 ∨ el = .el2 ↔ el ≠ .el1 := by
    cases el <;> simp at hEl ⊢
  cases hE2h : s.env.e2h with
  | true => simp [ttaTrapsAt, hE2h, belowEL3, hEl, hNotEl1]
  | false => simp [ttaTrapsAt, hE2h, belowEL3, hEl]

/-- Settles O54: rule R131 answers at EL0 with a trace unit it names, and else TTA is the one test met. -/
theorem ttaField : Obligations.TtaField := by
  intro byCpacr el st s hSettled h2 hEl
  by_cases hUndef : el = .el0 ∧ (s.params.featETMv4 = true ∨ s.params.featETE = true)
  · rw [if_pos hUndef, cptrEl2Check_of_undefinedTrace h2 (by simpa [undefinedTrace] using hUndef), verdict?]
  · have hTrace : undefinedTrace s { trace := true, trappedByCpacrTrace := byCpacr } el = false := by
      simpa [undefinedTrace] using hUndef
    rw [if_neg hUndef, verdict?_of_no_fpId hSettled h2 hTrace rfl]
    simp [settledVerdict, inSMEclass, inSVEclass, inFPclass, ttaTrapsAt_iff hEl, ttaEc]

end Sys2Proof.Machine
end

section
/-!
The controls of SME, SVE and floating point in layout B (`spec/42_trap_controls_e2h0.md`).
-/

namespace Sys2Proof.Machine

/-- Below EL3 a control of layout B traps as its trap bit says, at every level and whatever TGE is (rules R159, R163,
R165). -/
theorem controlTrapsAt_layoutB {s : State} {el : EL} (hE2h : s.env.e2h = false) (hEl : el ≠ .el3) (enable bit : Nat) :
    controlTrapsAt enable bit el s = s.base.bits.getLsbD bit := by
  simp [controlTrapsAt, hE2h, belowEL3, hEl]

/-- Settles O48: in layout B the three controls are the trap bits TSM, TZ and TFP. -/
theorem trapBitsOfLayoutB : Obligations.TrapBitsOfLayoutB := by
  intro sme sve smeReg sveReg fp fpmr el st s hSettled h2 hE2h hEl
  rw [verdict?_of_no_fpId hSettled h2 rfl rfl, settledVerdict_of_no_register rfl rfl rfl rfl]
  simp only [controlTrapsAt_layoutB hE2h hEl, inSMEclass, inSVEclass, inFPclass]

end Sys2Proof.Machine
end

section
/-!
The traps of a guest's accesses to EL2 with EC 0x18 (`spec/60_exceptions.md`): the fine-grained traps of CPACR_EL1, and
the name CPTR_EL2 at EL1.
-/

namespace Sys2Proof.Machine

/-! ## The fine-grained traps of CPACR_EL1 (rule R188) -/

theorem fgtGate_of_applies {α : Type} {fgtBit : Bool} {s : State} (h : FineGrainedTrapApplies fgtBit s)
    (k : Result α) : fgtGate fgtBit s k = .fault (.trap .el2 0x18 none) :=
  if_pos (by simpa [and_assoc] using h)

/-- Where EL3's first test and TCPAC let the access through, a fine-grained trap that applies catches it ahead of EL3's
second test. -/
theorem routeCpacrEl1_of_fgt {fgtBit : Bool} {s : State} (hVHE : s.params.featVHE = true)
    (hAA64 : s.params.featAA64 = true) (hEl : s.env.el = .el1) (hFirst : ¬ EL3StopsFirst s)
    (hTcpac : s.env.el2Enabled = true → EveryContent (fun c => c.bit? 31 = some false) s)
    (hFgt : FineGrainedTrapApplies fgtBit s) :
    routeCpacrEl1 fgtBit s = .fault (.trap .el2 0x18 none) := by
  obtain ⟨d, -, hGate⟩ := tcpacGate_of_zero hTcpac
  rw [routeCpacrEl1_of_el1 hVHE hAA64 hEl, el3Priority_of_not_stopsFirst hFirst, hGate, andThen_next]
  exact fgtGate_of_applies (s := s.withDraws d) hFgt _

/-- Settles O14: the read meets the bit of HFGRTR_EL2 and the write that of HFGWTR_EL2, each after EL3's first test and
TCPAC. -/
theorem fineGrainedTrapOfCpacr : Obligations.FineGrainedTrapOfCpacr := by
  intro s t hVHE hAA64 hEl hFirst h2 hTcpac hFgt hEL3
  have hRoute {b : Bool} (hBit : b = true) : routeCpacrEl1 b s = .fault (.trap .el2 0x18 none) :=
    routeCpacrEl1_of_fgt hVHE hAA64 hEl hFirst (fun _ => hTcpac) ⟨h2, hFgt, hEL3, hBit⟩
  refine ⟨fun hRead => ?_, fun hWrite => ?_⟩
  · rw [exec_mrsCpacrEl1, hRoute hRead, mrsFrom_fault]
  · rw [exec_msrCpacrEl1, hRoute hWrite, msrTo_fault]

/-! ## The name CPTR_EL2 at EL1 (rule R186) -/

/-- The stop of a guest's access by the name CPTR_EL2: a trap where bit 0 of NVx is one, else Undefined. -/
def guestCptrStop (s : State) : Fault := if s.env.nvx.getLsbD 0 then .trap .el2 0x18 none else .undefined

theorem fault_guestCptrStop {α : Type} (s : State) : (.fault (guestCptrStop s) : Result α) =
    if s.env.nvx.getLsbD 0 then .fault (.trap .el2 0x18 none) else .fault .undefined :=
  apply_ite Host.Outcome.fault _ _ _

theorem routeCptrEl2_of_el1 {s : State} (hAA64 : s.params.featAA64 = true) (hEl : s.env.el = .el1) :
    routeCptrEl2 s = .fault (guestCptrStop s) := by
  simp [routeCptrEl2, hAA64, hEl, fault_guestCptrStop, systemAccessTrap, raiseUndefined]

/-- Settles O10: the arms by the name end at EL1 in the one stop, for the read and the write alike. -/
theorem guestUseOfCptrNameIsCaught : Obligations.GuestUseOfCptrNameIsCaught := by
  intro s t hAA64 hEl
  obtain ⟨hRead, hWrite⟩ :=
    exec_of_routeBy_fault (n := .cptrEl2) (fun _ => routeCptrEl2_of_el1 hAA64 hEl) t
  simp only [List.forall_mem_cons, ← fault_guestCptrStop]
  exact ⟨hRead, hWrite, List.forall_mem_nil _⟩

end Sys2Proof.Machine
end

section
/-!
Reset and boot (`spec/70_reset_and_hazards.md`): the value software writes for CPTR_EL2 to trap nothing, and the state
after reset.
-/

namespace Sys2Proof.Machine

/-! ## The value that traps nothing (rule R205) -/

/-- The value of rule R205 for a layout and a set of features. -/
def trapNothingValue (e2h poe sme sve : Bool) : Word :=
  if e2h then
    0x00300000#64 ||| (if poe then 0x20000000#64 else 0#64) ||| (if sme then 0x03000000#64 else 0#64) |||
      (if sve then 0x00030000#64 else 0#64)
  else 0x22FF#64 ||| (if sme then 0#64 else 0x1000#64) ||| (if sve then 0#64 else 0x100#64)

section
variable {w : Word} {poe sme sve : Bool}

/-- In layout A the value clears TCPAC, TAM and TTA, and sets E0POE, SMEN, FPEN and ZEN where they are present. -/
theorem fields_of_trapNothingValue_layoutA (h : w = trapNothingValue true poe sme sve) :
    w.getLsbD 31 = false ∧ w.getLsbD 30 = false ∧ w.getLsbD 28 = false ∧ w.getLsbD 29 = poe ∧
      w.extractLsb' 20 2 = 0b11#2 ∧ (sme = true → w.extractLsb' 24 2 = 0b11#2) ∧
      (sve = true → w.extractLsb' 16 2 = 0b11#2) := by
  subst h
  decide +revert

/-- In layout B the value clears TCPAC, TAM, TTA and TFP, and TSM and TZ where they are present. -/
theorem fields_of_trapNothingValue_layoutB (h : w = trapNothingValue false poe sme sve) :
    w.getLsbD 31 = false ∧ w.getLsbD 30 = false ∧ w.getLsbD 20 = false ∧ w.getLsbD 10 = false ∧
      (sme = true → w.getLsbD 12 = false) ∧ (sve = true → w.getLsbD 8 = false) := by
  subst h
  decide +revert

end

/-- Where no field of the layout in force asks for a trap, the tests give none, whatever the class inputs. -/
theorem settledVerdict_eq_noTrap {s : State} {el : EL}
    (hSme : s.params.featSME = true → controlTrapsAt 24 12 el s = false)
    (hSve : s.params.featSVE = true → controlTrapsAt 16 8 el s = false)
    (hFp : controlTrapsAt 20 10 el s = false) (hTcpac : s.base.bits.getLsbD 31 = false)
    (hTam : s.base.bits.getLsbD 30 = false)
    (hE0poe : s.env.e2h = true → s.base.bits.getLsbD 29 = s.params.featS1POE)
    (hTta : ∀ byCpacr, ttaTrapsAt byCpacr el s = false) (i : ClassInputs) (st : ExecState) :
    settledVerdict i el st s = .noTrap := by
  have hNoSme : (s.params.featSME && inSMEclass s i && controlTrapsAt 24 12 el s) = false := by
    rw [Bool.and_right_comm, Bool.and_eq_false_imp.2 hSme, Bool.false_and]
  have hNoSve : (s.params.featSVE && inSVEclass s i && controlTrapsAt 16 8 el s) = false := by
    rw [Bool.and_right_comm, Bool.and_eq_false_imp.2 hSve, Bool.false_and]
  have hNoE0poe : (s.env.e2h && (s.params.featS1POE && i.porEl0 && decide (st = .aarch64) && decide (el = .el0) &&
      !s.base.bits.getLsbD 29)) = false := by
    refine Bool.and_eq_false_imp.2 fun hE2h => ?_
    rw [hE0poe hE2h]
    cases s.params.featS1POE <;> simp
  simp only [settledVerdict, hNoSme, hNoSve, hFp, hTcpac, hTam, hNoE0poe, hTta, Bool.and_false, Bool.false_and,
    Bool.false_eq_true, if_false]

/-- The value of rule R205 for the layout in force and the features clears every trap bit and sets every enable. -/
theorem settledVerdict_of_trapNothingValue {s : State}
    (h : s.base.bits = trapNothingValue s.env.e2h s.params.featS1POE s.params.featSME s.params.featSVE)
    (i : ClassInputs) (el : EL) (st : ExecState) : settledVerdict i el st s = .noTrap := by
  cases hE2h : s.env.e2h with
  | true =>
    rw [hE2h] at h
    obtain ⟨hTcpac, hTam, hTta, hE0poe, hFpen, hSmen, hZen⟩ := fields_of_trapNothingValue_layoutA h
    have hEnabled {enable bit : Nat} (hOn : s.base.bits.extractLsb' enable 2 = 0b11#2) :
        controlTrapsAt enable bit el s = false := by rw [controlTrapsAt, if_pos hE2h, hOn, enTraps_three]
    have hNoTta (byCpacr : Bool) : ttaTrapsAt byCpacr el s = false := by
      rw [ttaTrapsAt, if_pos hE2h, hTta, Bool.false_and]
    exact settledVerdict_eq_noTrap (fun hFeat => hEnabled (hSmen hFeat)) (fun hFeat => hEnabled (hZen hFeat))
      (hEnabled hFpen) hTcpac hTam (fun _ => hE0poe) hNoTta i st
  | false =>
    have hLayoutB : ¬ s.env.e2h = true := Bool.eq_false_iff.1 hE2h
    rw [hE2h] at h
    obtain ⟨hTcpac, hTam, hTta, hTfp, hTsm, hTz⟩ := fields_of_trapNothingValue_layoutB h
    have hCleared {enable bit : Nat} (hOff : s.base.bits.getLsbD bit = false) :
        controlTrapsAt enable bit el s = false := by rw [controlTrapsAt, if_neg hLayoutB, hOff, Bool.false_and]
    have hNoTta (byCpacr : Bool) : ttaTrapsAt byCpacr el s = false := by
      rw [ttaTrapsAt, if_neg hLayoutB, hTta, Bool.false_and, Bool.false_and]
    exact settledVerdict_eq_noTrap (fun hFeat => hCleared (hTsm hFeat)) (fun hFeat => hCleared (hTz hFeat))
      (hCleared hTfp) hTcpac hTam (fun hLayoutA => absurd hLayoutA hLayoutB) hNoTta i st

/-- A verdict is given only by a check that answers. -/
theorem eq_next_of_verdict? {r : Result (Verdict × State)} {v : Verdict} (h : verdict? r = some v) :
    ∃ s', r = .next (v, s') := by
  cases r with
  | next p => exact ⟨p.2, by rw [← Option.some.inj h]⟩
  | fault f => cases h
  | refused f => cases h

/-- Settles O58: a check that the tests answer has the closed form of a settled storage, for whatever class inputs it
comes to. -/
theorem trapNothingValues : Obligations.TrapNothingValues := by
  intro i el st s v ⟨hSync, hFull⟩ hValue hVerdict
  obtain ⟨s', hCheck⟩ := eq_next_of_verdict? hVerdict
  rcases cptrEl2Check_eq_next hCheck with ⟨hNone, -⟩ | ⟨hUndef, -⟩ | ⟨-, -, -, hTests⟩
  · exact .inl hNone
  · exact .inr hUndef
  · rw [indirectRead_synchronised hSync, firstTrap_testsOf_of_full hFull,
      settledVerdict_of_trapNothingValue hValue] at hTests
    exact .inl (Option.some.inj hTests).symm

/-! ## The state after reset (rules R200 to R203, decisions D22, D23) -/

/-- The canonical form asks nothing of a content of which every bit holds a value. -/
theorem Content.wf_of_full {c : Content} (h : c.full = true) : c.wf = true :=
  Content.wf_iff.2 fun k hk hUnknown => by simp [Content.full_iff.1 h k hk] at hUnknown

/-- Draw number 0 is the one that the Warm reset makes. -/
theorem reset_eq_warmReset : State.reset = warmReset (State.reset.withDraws 0) := rfl

/-- Settles O42: of CPTR_EL2 what a Warm reset under the policy `draw` leaves, of the rest the values themselves. -/
theorem resetMeetsTheInvariants : Obligations.ResetMeetsTheInvariants := by
  obtain ⟨hPending, -, hDrawn⟩ := warmResetLeavesTheRegisterUnknown (State.reset.withDraws 0)
  obtain ⟨hFull, hReserved⟩ := hDrawn rfl
  rw [← reset_eq_warmReset] at hPending hFull hReserved
  have hConsistent : Consistent State.reset := by decide
  have hStep : step State.reset = .fault .endOfProgram := step_of_no_text rfl rfl rfl
  exact ⟨⟨rfl, rfl, Content.wf_of_full hFull, nofun⟩, rfl, ⟨rfl, hFull, nofun⟩, hReserved, hConsistent, hPending, hStep⟩

end Sys2Proof.Machine
end
